-- ==== Sys2Proof/Word.lean ====
section
/-! DEFINITION. The widths of the block's values (00_scope R8, R9). Every value is unsigned and bit 0 is
the least significant bit. -/

namespace Sys2Proof

/-- A command word, a response word, and every 32-bit register (R8, R34). -/
abbrev Word := BitVec 32

/-- One input byte (R8). -/
abbrev Byte := BitVec 8

/-- A 16-bit immediate, a LISTMEM index or a LISTMEM entry (R39, R76). -/
abbrev Half := BitVec 16

/-- A hash index or bucket number, 0..63 by its width (R8, R74). -/
abbrev Index := BitVec 6

/-- A register number as format R holds it (R75). -/
abbrev RegNum := BitVec 4

end Sys2Proof
end

