-- ==== Sys2Proof/Syntax.lean ====
section
/-! DEFINITION. The command set as syntax: the 25 commands of R78, the register names of R34, and the
pseudo-commands of the assembler (R86). -/

namespace Sys2Proof

/-- The eleven registers, in the order of their numbers 0..10 (R34). `pfx` is PREFIX. -/
inductive Reg where
  | crc | cnt | res | refl | idx | hth | htl | data | pfx | status | vstat
  deriving DecidableEq, Repr

/-- The commands, one constructor per row of the opcode map (R78), in its order. -/
inductive Instr where
  | nop
  | reflect                 -- RFL
  | init
  | byte (imm8 : Byte)
  | feedh
  | feedw
  | final
  | hash
  | hashmac
  | mapclr
  | mapset
  | mapor
  | mapori (k : Index)
  | verify
  | crun
  | ccnt (k : Index)
  | cbase (k : Index)
  | clist (imm16 : Half)
  | cprobe (imm16 : Half)
  | ldlo (imm16 : Half)
  | ldhi (imm16 : Half)
  | rd (rn : RegNum)
  | wr (rn : RegNum)
  | clrerr
  | srst
  deriving DecidableEq, Repr

/-- The pseudo-commands of the assembler (R86). The block never sees one. -/
inductive Pseudo where
  | ldi (imm32 : Word)
  | feed6 (b0 b1 b2 b3 b4 b5 : Byte)
  | machash (b0 b1 b2 b3 b4 b5 : Byte)
  | setpfx (imm32 : Word)
  | csel (d p : Byte)
  deriving DecidableEq, Repr

/-- One line of assembler source after it is cut into words (R85): a mnemonic and its operands. A
register written by its name stands here as its number. -/
structure AsmLine where
  mnemonic : String
  operands : List Nat
  deriving DecidableEq, Repr

end Sys2Proof
end

