-- ==== Sys2Proof/WellFormed.lean ====
section
/-! DEFINITION. Checks on syntax. Every field of a command fits its encoding by its type, so what is
left to check is which register numbers a command may name (R82), and, one level up, whether an
assembler operand fits its field (R85). The machine runs commands that fail `Instr.wellFormed` too:
they raise IllegalCommand from their own rule. -/

namespace Sys2Proof

/-- Whether register number `rn` names a register at all (R34: 11..15 are reserved). -/
def RegNum.defined (rn : RegNum) : Bool := decide (rn.toNat < 11)

/-- Whether register number `rn` names a register WR may write (R184). -/
def RegNum.writable (rn : RegNum) : Bool :=
  rn == 0 || rn == 1 || rn == 5 || rn == 6 || rn == 7 || rn == 8

/-- The encodings R82 does not call illegal: RD names a defined register, WR a writable one. -/
def Instr.wellFormed : Instr → Bool
  | .rd rn => RegNum.defined rn
  | .wr rn => RegNum.writable rn
  | .nop | .reflect | .init | .byte _ | .feedh | .feedw | .final | .hash | .hashmac | .mapclr
  | .mapset | .mapor | .mapori _ | .verify | .crun | .ccnt _ | .cbase _ | .clist _ | .cprobe _
  | .ldlo _ | .ldhi _ | .clrerr | .srst => true

/-- Whether an assembler operand fits a field of `width` bits (R85: an assembler refuses one that does
not, and does not truncate). -/
def fitsField (width n : Nat) : Bool := decide (n < 2 ^ width)

end Sys2Proof
end

