-- ==== Sys2Proof/Decode.lean ====
section
/-! DEFINITION. Command encoding (30_encoding): the five formats, the opcode map, the decoder of R79,
total over all 32-bit words, and the encoder written from the same formats. -/

namespace Sys2Proof

/-- The five formats (R72 to R76). -/
inductive Format where
  | n | b | k | r | i
  deriving DecidableEq, Repr

/-- Why a word does not decode (R79): both raise IllegalCommand. -/
inductive DecodeError where
  /-- The opcode is one of the reserved values of R80. -/
  | reservedOpcode
  /-- The opcode is assigned and a reserved field is nonzero (R81). -/
  | reservedField
  deriving DecidableEq, Repr

/-! Fields of a command word (R71 to R76). -/

/-- OP, bits [31:24]. -/
def opField (w : Word) : Byte := w.extractLsb' 24 8

/-- imm8, bits [7:0]. -/
def imm8Field (w : Word) : Byte := w.extractLsb' 0 8

/-- k, bits [5:0]. -/
def kField (w : Word) : Index := w.extractLsb' 0 6

/-- rn, bits [3:0]. -/
def rnField (w : Word) : RegNum := w.extractLsb' 0 4

/-- imm16, bits [15:0]. -/
def imm16Field (w : Word) : Half := w.extractLsb' 0 16

/-- The mask column of R78: the bits a format fixes. -/
def formatMask : Format → Word
  | .n => 0xFFFFFFFF
  | .b => 0xFFFFFF00
  | .k => 0xFFFFFFC0
  | .r => 0xFFFFFFF0
  | .i => 0xFFFF0000

/-- R79's check that the reserved field of a format is zero. -/
def reservedFieldZero (f : Format) (w : Word) : Bool :=
  match f with
  | .n => w.extractLsb' 0 24 == 0
  | .b => w.extractLsb' 8 16 == 0
  | .k => w.extractLsb' 6 18 == 0
  | .r => w.extractLsb' 4 20 == 0
  | .i => w.extractLsb' 16 8 == 0

/-- One row of the opcode map (R78): mnemonic, opcode, format, and the command a word of it stands for. -/
structure OpcodeRow where
  mnemonic : String
  op       : Byte
  format   : Format
  operands : Word → Instr

/-- The opcode map's rows with opcodes 0x00 to 0x43 (R78). -/
def opcodeRowsCore : List OpcodeRow :=
  [ ⟨"NOP",     0x00, .n, fun _ => .nop⟩,
    ⟨"RFL",     0x10, .n, fun _ => .reflect⟩,
    ⟨"INIT",    0x20, .n, fun _ => .init⟩,
    ⟨"BYTE",    0x21, .b, fun w => .byte (imm8Field w)⟩,
    ⟨"FEEDH",   0x22, .n, fun _ => .feedh⟩,
    ⟨"FEEDW",   0x23, .n, fun _ => .feedw⟩,
    ⟨"FINAL",   0x24, .n, fun _ => .final⟩,
    ⟨"HASH",    0x30, .n, fun _ => .hash⟩,
    ⟨"HASHMAC", 0x31, .n, fun _ => .hashmac⟩,
    ⟨"MAPCLR",  0x40, .n, fun _ => .mapclr⟩,
    ⟨"MAPSET",  0x41, .n, fun _ => .mapset⟩,
    ⟨"MAPOR",   0x42, .n, fun _ => .mapor⟩,
    ⟨"MAPORI",  0x43, .k, fun w => .mapori (kField w)⟩ ]

/-- The opcode map's rows with opcodes 0x50 to 0x7F (R78). -/
def opcodeRowsSystem : List OpcodeRow :=
  [ ⟨"VERIFY",  0x50, .n, fun _ => .verify⟩,
    ⟨"CRUN",    0x60, .n, fun _ => .crun⟩,
    ⟨"CCNT",    0x61, .k, fun w => .ccnt (kField w)⟩,
    ⟨"CBASE",   0x62, .k, fun w => .cbase (kField w)⟩,
    ⟨"CLIST",   0x63, .i, fun w => .clist (imm16Field w)⟩,
    ⟨"CPROBE",  0x64, .i, fun w => .cprobe (imm16Field w)⟩,
    ⟨"LDLO",    0x70, .i, fun w => .ldlo (imm16Field w)⟩,
    ⟨"LDHI",    0x71, .i, fun w => .ldhi (imm16Field w)⟩,
    ⟨"RD",      0x72, .r, fun w => .rd (rnField w)⟩,
    ⟨"WR",      0x73, .r, fun w => .wr (rnField w)⟩,
    ⟨"CLRERR",  0x74, .n, fun _ => .clrerr⟩,
    ⟨"SRST",    0x7F, .n, fun _ => .srst⟩ ]

/-- The opcode map (R78). -/
def opcodeTable : List OpcodeRow := opcodeRowsCore ++ opcodeRowsSystem

/-- The match column of R78: the opcode in [31:24], every other bit 0. -/
def rowMatch (row : OpcodeRow) : Word := row.op ++ (0 : BitVec 24)

/-- R78: a word selects a row when `(word & mask) == match`. -/
def selectsRow (w : Word) (row : OpcodeRow) : Bool := (w &&& formatMask row.format) == rowMatch row

/-- The decoder of R79: the opcode first, then the reserved field of its format. -/
def decode (w : Word) : Except DecodeError Instr :=
  match opcodeTable.find? (fun row => row.op == opField w) with
  | none => .error .reservedOpcode
  | some row =>
    if reservedFieldZero row.format w then .ok (row.operands w) else .error .reservedField

/-! The encoder: one assembly function per format (R72 to R76). -/

/-- Format N. -/
def wordN (op : Byte) : Word := op ++ (0 : BitVec 24)

/-- Format B. -/
def wordB (op imm8 : Byte) : Word := op ++ (0 : BitVec 16) ++ imm8

/-- Format K. -/
def wordK (op : Byte) (k : Index) : Word := op ++ (0 : BitVec 18) ++ k

/-- Format R. -/
def wordR (op : Byte) (rn : RegNum) : Word := op ++ (0 : BitVec 20) ++ rn

/-- Format I. -/
def wordI (op : Byte) (imm16 : Half) : Word := op ++ (0 : BitVec 8) ++ imm16

/-- The word of a command (R78). -/
def encode : Instr → Word
  | .nop => wordN 0x00
  | .reflect => wordN 0x10
  | .init => wordN 0x20
  | .byte imm8 => wordB 0x21 imm8
  | .feedh => wordN 0x22
  | .feedw => wordN 0x23
  | .final => wordN 0x24
  | .hash => wordN 0x30
  | .hashmac => wordN 0x31
  | .mapclr => wordN 0x40
  | .mapset => wordN 0x41
  | .mapor => wordN 0x42
  | .mapori k => wordK 0x43 k
  | .verify => wordN 0x50
  | .crun => wordN 0x60
  | .ccnt k => wordK 0x61 k
  | .cbase k => wordK 0x62 k
  | .clist imm16 => wordI 0x63 imm16
  | .cprobe imm16 => wordI 0x64 imm16
  | .ldlo imm16 => wordI 0x70 imm16
  | .ldhi imm16 => wordI 0x71 imm16
  | .rd rn => wordR 0x72 rn
  | .wr rn => wordR 0x73 rn
  | .clrerr => wordN 0x74
  | .srst => wordN 0x7F

/-- The command word that an instruction of `nbits` bits numbered as the opcode table numbers them
stands for. The port takes whole 32-bit words (R55, R70), so no byte order enters, and bits above
`nbits` are 0. Log entry 13. -/
def tableWord (nbits w : Nat) : Word := BitVec.ofNat 32 (w % 2 ^ nbits)

/-- What the decoder reads from a table row's word; none where it refuses. -/
def decodeTableWord (nbits w : Nat) : Option Instr :=
  match decode (tableWord nbits w) with
  | .ok i => some i
  | .error _ => none

end Sys2Proof
end

