-- ==== Sys2Proof/Config.lean ====
section
/-! DEFINITION. The free values of the model. The open parameters CMD_LATENCY, CRUN_WORKERS, BLOCK_BASE
and BUS_ENDIAN of R8 have no constant here: no rule depends on them (log entries 10, 13, 14). -/

namespace Sys2Proof.Config

/-- What an entry of CNTMEM reads as while nothing has been written to it since reset or SRST: any
value (R38, U4). Nothing constrains it. Log entry 1. -/
opaque unspecifiedCount : Index → BitVec 17

/-- What an entry of LISTMEM reads as while nothing has been written to it since reset or SRST: any
value (R39, U4). Nothing constrains it. Log entry 1. -/
opaque unspecifiedEntry : Half → Half

end Sys2Proof.Config
end

