-- ==== Sys2Proof/Machine/State.lean ====
section
/-! DEFINITION. The state of the block as plain data: the eleven registers (R20, R34), the two writable
memories (R38, R39), and the host port (R200, R220 to R223). VROM is a constant (`romRead` in
Machine/Verify.lean; log entry 8). -/

namespace Sys2Proof.Machine

/-- STATUS, register 9 (R30). Its reserved bits read 0 and have no storage (log entry 7). -/
structure Status where
  /-- 1 if any command has raised an error since the last reset, SRST or CLRERR. -/
  err   : Bool
  /-- Code of the first error raised while ERR was 0. -/
  ecode : BitVec 4
  /-- 1 if CNTMEM and LISTMEM hold the collision map of the current PREFIX (R32). -/
  cv    : Bool
  deriving DecidableEq, Repr

/-- VSTAT, register 10 (R33). Its reserved bits read 0 and have no storage (log entry 7). -/
structure Vstat where
  vidx0   : Index
  vidx1   : Index
  vidx2   : Index
  m0      : Bool
  m1      : Bool
  m2      : Bool
  allpass : Bool
  vdone   : Bool
  deriving DecidableEq, Repr

/-- The response of a command (R200): 4-bit code, 32-bit data. -/
structure Response where
  code : BitVec 4
  data : Word
  deriving DecidableEq, Repr

/-- One action of the host at the port (R222). A list of them is the order in which they take effect there
(log entry 18). -/
inductive HostAction where
  /-- Offer a command word, and keep offering it until the block accepts it. -/
  | issue (w : Word)
  /-- Take the response the block offers. -/
  | take
  /-- Assert the reset input (R230). -/
  | reset
  /-- Offer a command word as `issue` does, and assert reset while the block executes it (R212). -/
  | resetDuring (w : Word)
  deriving DecidableEq, Repr

/-- A memory of `w`-bit entries: the entries written since its contents were last unspecified, as
(index, entry) pairs in the form of `Memory.wf` (log entry 9). -/
abbrev Memory (w : Nat) := List (Nat × BitVec w)

/-- The canonical form: indices strictly rising, each below `size`. An unlisted entry has no value
(`Memory.get?` answers none), so no listed entry can equal what an unlisted one reads as. -/
abbrev Memory.wf {w : Nat} (size : Nat) (m : Memory w) : Prop :=
  m.Pairwise (fun a b => a.1 < b.1) ∧ ∀ c ∈ m, c.1 < size

/-- Number of entries of CNTMEM (R38). -/
def cntmemSize : Nat := 64

/-- Number of entries of LISTMEM (R39). -/
def listmemSize : Nat := 65536

/-- The block's state (R20) and its port (R220). -/
structure State where
  /-- CRC: the running CRC before the final XOR (R21). -/
  crc     : Word
  /-- CNT: bytes fed since the last INIT, saturating (R22). -/
  cnt     : Word
  /-- RES: the finalised CRC (R23). -/
  res     : Word
  /-- REFL: the bit-reversal pipeline's output (R24). -/
  refl    : Word
  /-- IDX: the hash index (R25). -/
  idx     : Index
  /-- HTH: hash table register, indices 32..63 (R26). -/
  hth     : Word
  /-- HTL: hash table register, indices 0..31 (R27). -/
  htl     : Word
  /-- DATA: the operand register (R28). -/
  data    : Word
  /-- PREFIX: the collision prefix, first byte on the wire in [31:24] (R29). -/
  pfx     : Word
  /-- STATUS (R30). -/
  status  : Status
  /-- VSTAT (R33). -/
  vstat   : Vstat
  /-- CNTMEM (R38). -/
  cntmem  : Memory 17
  /-- LISTMEM (R39). -/
  listmem : Memory 16
  /-- The response offered and not yet taken (R220); none while the block can accept a command. -/
  rsp     : Option Response
  /-- The responses delivered so far, oldest first (R223). -/
  taken   : List Response
  /-- The host's actions still to come, the next one first: the model's input (R220, R222). -/
  host    : List HostAction
  deriving DecidableEq, Repr

/-- The state right after reset (R43, R230): nothing listed in either memory, and an idle port with no
host action waiting (log entries 1, 2, 4). -/
def State.reset : State where
  crc     := 0xFFFFFFFF
  cnt     := 0
  res     := 0
  refl    := 0
  idx     := 0
  hth     := 0
  htl     := 0
  data    := 0
  pfx     := 0
  status  := { err := false, ecode := 0, cv := false }
  vstat   := { vidx0 := 0, vidx1 := 0, vidx2 := 0, m0 := false, m1 := false, m2 := false,
               allpass := false, vdone := false }
  cntmem  := []
  listmem := []
  rsp     := none
  taken   := []
  host    := []

/-- Why a step stops. No command stops: errors of R201 are next states (R204). -/
inductive Fault where
  /-- Raised by the port (`takeResponse`) when the host takes a response whose code is 4..15: such a
  block departs from the spec (R201, U11). Safe: no state reached from reset offers one. -/
  | reservedResponseCode
  deriving DecidableEq, Repr

/-- Why an instruction has no meaning. -/
inductive Refusal where
  /-- Raised by an arm of `exec` for an instruction not modelled yet, named as the opcode table names
  it. Safe: nothing is claimed of it. No arm raises it now. -/
  | notModelled (mnemonic : String)
  deriving DecidableEq, Repr

end Sys2Proof.Machine
end

