-- ==== Sys2Proof/Machine/Flags.lean ====
section
/-! DEFINITION. The flag registers STATUS and VSTAT (R30 to R33): their read views, and every way a flag
changes. -/

namespace Sys2Proof.Machine

/-- The errors a command can raise (R11, R201). -/
inductive Error where
  | invalidInput | illegalCommand | notReady
  deriving DecidableEq, Repr

/-- The code of an error (R201). -/
def errorCode : Error → BitVec 4
  | .invalidInput => 1
  | .illegalCommand => 2
  | .notReady => 3

/-- One flag as a 1-bit field. -/
def flagBit (b : Bool) : BitVec 1 := BitVec.ofBool b

/-- What RD of STATUS returns (R30): CV at bit 8, ECODE at [7:4], ERR at bit 0, the rest 0. -/
def statusWord (f : Status) : Word :=
  (0 : BitVec 23) ++ flagBit f.cv ++ f.ecode ++ (0 : BitVec 3) ++ flagBit f.err

/-- What RD of VSTAT returns (R33): VDONE, ALLPASS, M2, M1, M0, VIDX2, VIDX1, VIDX0 from bit 22 down. -/
def vstatWord (v : Vstat) : Word :=
  (0 : BitVec 9) ++ flagBit v.vdone ++ flagBit v.allpass ++ flagBit v.m2 ++ flagBit v.m1 ++
    flagBit v.m0 ++ v.vidx2 ++ v.vidx1 ++ v.vidx0

/-- What an error leaves in STATUS (R31, R204): ECODE takes the code only while ERR is 0; ERR is set. -/
def recordError (e : Error) (f : Status) : Status :=
  { f with err := true, ecode := if f.err then f.ecode else errorCode e }

/-- CLRERR's effect on STATUS (R185): ERR and ECODE to 0. -/
def clearErrorRecord (f : Status) : Status :=
  { f with err := false, ecode := 0 }

/-- CRUN's effect on STATUS (R32, R160). -/
def setMapValid (f : Status) : Status := { f with cv := true }

/-- WR 8's effect on STATUS (R32, R184). -/
def clearMapValid (f : Status) : Status := { f with cv := false }

/-- VSTAT as VERIFY assembles it from the three computed indices and match bits (R150). -/
def assembleVstat (i0 i1 i2 : Index) (m0 m1 m2 : Bool) : Vstat :=
  { vidx0 := i0, vidx1 := i1, vidx2 := i2, m0 := m0, m1 := m1, m2 := m2,
    allpass := m0 && m1 && m2, vdone := true }

end Sys2Proof.Machine
end

