-- ==== Sys2Proof/Machine/Operands.lean ====
section
/-! DEFINITION. Operand forms (R54, R77): the bytes of a register in wire order, the halves of DATA, the
(d, p) packing, and the registers a number names (R34). -/

namespace Sys2Proof.Machine

/-- Bits [31:24]: of the bytes of a word, the one first on the wire (R54). -/
def wireByte0 (w : Word) : Byte := w.extractLsb' 24 8

/-- Bits [23:16]. -/
def wireByte1 (w : Word) : Byte := w.extractLsb' 16 8

/-- Bits [15:8]. -/
def wireByte2 (w : Word) : Byte := w.extractLsb' 8 8

/-- Bits [7:0]: the byte last on the wire. -/
def wireByte3 (w : Word) : Byte := w.extractLsb' 0 8

/-- The bytes FEEDW feeds, in order (R115). -/
def feedwBytes (data : Word) : List Byte :=
  [wireByte0 data, wireByte1 data, wireByte2 data, wireByte3 data]

/-- The bytes FEEDH feeds, in order (R114): DATA[15:8], then DATA[7:0]. -/
def feedhBytes (data : Word) : List Byte := [wireByte2 data, wireByte3 data]

/-- `prefix_bytes()` of R162: the four bytes of PREFIX, first on the wire first. -/
def prefixBytes (pfx : Word) : List Byte :=
  [wireByte0 pfx, wireByte1 pfx, wireByte2 pfx, wireByte3 pfx]

/-- d of a packed pair: bits [15:8] (R39, R76). -/
def pairD (n : Half) : Byte := n.extractLsb' 8 8

/-- p of a packed pair: bits [7:0] (R39, R76). -/
def pairP (n : Half) : Byte := n.extractLsb' 0 8

/-- A pair packed as a LISTMEM entry: `(d << 8) | p` (R39). -/
def packPair (d p : Byte) : Half := (d.setWidth 16 <<< 8) ||| p.setWidth 16

/-- LDLO's result (R181): the immediate in [15:0], [31:16] kept. -/
def withLowHalf (data : Word) (imm16 : Half) : Word :=
  (data &&& 0xFFFF0000) ||| imm16.setWidth 32

/-- LDHI's result (R182): the immediate in [31:16], [15:0] kept. -/
def withHighHalf (data : Word) (imm16 : Half) : Word :=
  (imm16.setWidth 32 <<< 16) ||| (data &&& 0x0000FFFF)

/-- The register a number names; none for the reserved numbers 11..15 (R34). -/
def regOfNum (rn : RegNum) : Option Reg :=
  match rn.toNat with
  | 0 => some .crc
  | 1 => some .cnt
  | 2 => some .res
  | 3 => some .refl
  | 4 => some .idx
  | 5 => some .hth
  | 6 => some .htl
  | 7 => some .data
  | 8 => some .pfx
  | 9 => some .status
  | 10 => some .vstat
  | _ => none

end Sys2Proof.Machine
end

