-- ==== Sys2Proof/Machine/Ops.lean ====
section
/-! DEFINITION. The named operations over registers, memories and the response (R11): the read views
and writes of the register map, the memory primitives, `respond`, and the error path `raise` with the
recovery from it. -/

namespace Sys2Proof.Machine

/-! Memories. -/

/-- The listed entry at an index, if any. -/
def Memory.get? {w : Nat} : Memory w → Nat → Option (BitVec w)
  | [], _ => none
  | (a, v) :: m, n => if a = n then some v else Memory.get? m n

/-- Write one entry, keeping the indices strictly rising. -/
def Memory.set {w : Nat} : Memory w → Nat → BitVec w → Memory w
  | [], n, v => [(n, v)]
  | (a, u) :: m, n, v =>
    if n < a then (n, v) :: (a, u) :: m
    else if n = a then (n, v) :: m
    else (a, u) :: Memory.set m n v

/-- `CntRead(k)` of R11; an entry nothing has written is a free value (log entry 1). -/
def cntRead (s : State) (k : Index) : BitVec 17 :=
  (Memory.get? s.cntmem k.toNat).getD (Config.unspecifiedCount k)

/-- `ListRead(n)` of R11; an entry nothing has written is a free value (log entry 1). -/
def listRead (s : State) (n : Half) : Half :=
  (Memory.get? s.listmem n.toNat).getD (Config.unspecifiedEntry n)

/-- `CntWrite(k, v)` of R11, on CNTMEM alone. -/
def cntWrite (m : Memory 17) (k : Index) (v : BitVec 17) : Memory 17 := Memory.set m k.toNat v

/-- `ListWrite(n, v)` of R11, on LISTMEM alone. -/
def listWrite (m : Memory 16) (n v : Half) : Memory 16 := Memory.set m n.toNat v

/-! Responses and errors. -/

/-- `respond(0, data)`: the response of a command that succeeds (R200). -/
def State.respond (s : State) (data : Word) : State :=
  { s with rsp := some { code := 0, data := data } }

/-- `raise E` (R204): the error is recorded in STATUS, the response is (code, 0), and nothing else
changes. Every error of every command goes through here. -/
def State.raise (s : State) (e : Error) : State :=
  { s with status := recordError e s.status, rsp := some { code := errorCode e, data := 0 } }

/-- Recovery from errors (R185, R210): the record in STATUS is cleared. -/
def State.clearErrors (s : State) : State :=
  { s with status := clearErrorRecord s.status }

/-- SRST's effect on the architectural state (R43, R189): every register and flag at its reset value,
both memories unspecified. The port is no architectural state and stays. -/
def State.softReset (s : State) : State :=
  { State.reset with rsp := s.rsp, taken := s.taken, host := s.host }

/-! The register map (R34). -/

/-- What RD of a register returns (R34, R35, R57): narrower registers zero-extended. -/
def State.readReg (s : State) : Reg → Word
  | .crc => s.crc
  | .cnt => s.cnt
  | .res => s.res
  | .refl => s.refl
  | .idx => s.idx.setWidth 32
  | .hth => s.hth
  | .htl => s.htl
  | .data => s.data
  | .pfx => s.pfx
  | .status => statusWord s.status
  | .vstat => vstatWord s.vstat

/-- A write of a register by WR (R34, R184); none for a read-only register. A write of PREFIX also
clears STATUS.CV and leaves both memories as they are (R32; log entry 11). -/
def State.writeReg (s : State) (r : Reg) (v : Word) : Option State :=
  match r with
  | .crc => some { s with crc := v }
  | .cnt => some { s with cnt := v }
  | .hth => some { s with hth := v }
  | .htl => some { s with htl := v }
  | .data => some { s with data := v }
  | .pfx => some { s with pfx := v, status := clearMapValid s.status }
  | .res | .refl | .idx | .status | .vstat => none

end Sys2Proof.Machine
end

