-- ==== Sys2Proof/Machine/Crc.lean ====
section
/-! DEFINITION. The CRC-32 reflected generator (41_crc). -/

namespace Sys2Proof.Machine

/-- The polynomial in reflected form (R2). -/
def crcPoly : Word := 0xEDB88320

/-- One round of R110: shift right one bit, XOR with the polynomial if the bit shifted out was 1. -/
def crcRound (c : Word) : Word :=
  if c.getLsbD 0 then (c >>> 1) ^^^ crcPoly else c >>> 1

/-- `n` rounds. -/
def crcRounds : Nat → Word → Word
  | 0, c => c
  | n + 1, c => crcRounds n (crcRound c)

/-- `crc_step(c, b)` of R110. -/
def crcStep (c : Word) (b : Byte) : Word := crcRounds 8 (c ^^^ b.setWidth 32)

/-- The running register after the bytes of a sequence, from `c` (R111's loop). -/
def crcFeed (c : Word) (bytes : List Byte) : Word := bytes.foldl crcStep c

/-- `crc_bytes(s)` of R111. -/
def crcBytes (bytes : List Byte) : Word := crcFeed 0xFFFFFFFF bytes ^^^ 0xFFFFFFFF

/-- `sat_inc(c)` of R117. -/
def satInc (c : Word) : Word := if c = 0xFFFFFFFF then c else c + 1

/-- Feed one byte: CRC advances by one `crc_step`, CNT by one saturating increment (R113). -/
def State.feedByte (s : State) (b : Byte) : State :=
  { s with crc := crcStep s.crc b, cnt := satInc s.cnt }

/-- Feed bytes one after another (R114, R115). -/
def State.feedBytes (s : State) (bytes : List Byte) : State := bytes.foldl State.feedByte s

/-- INIT (R112). -/
def execInit (s : State) : Host.Outcome State Fault Refusal :=
  .next ({ s with crc := 0xFFFFFFFF, cnt := 0 }.respond 0xFFFFFFFF)

/-- BYTE (R113). -/
def execByte (imm8 : Byte) (s : State) : Host.Outcome State Fault Refusal :=
  let t := s.feedByte imm8
  .next (t.respond t.crc)

/-- FEEDH (R114). -/
def execFeedh (s : State) : Host.Outcome State Fault Refusal :=
  let t := s.feedBytes (feedhBytes s.data)
  .next (t.respond t.crc)

/-- FEEDW (R115). -/
def execFeedw (s : State) : Host.Outcome State Fault Refusal :=
  let t := s.feedBytes (feedwBytes s.data)
  .next (t.respond t.crc)

/-- FINAL (R116). -/
def execFinal (s : State) : Host.Outcome State Fault Refusal :=
  let r := s.crc ^^^ 0xFFFFFFFF
  .next ({ s with res := r }.respond r)

end Sys2Proof.Machine
end

