-- ==== Sys2Proof/Machine/Reflect.lean ====
section
/-! DEFINITION. The bit-reversal pipeline (40_reflect). -/

namespace Sys2Proof.Machine

/-- R100's loop over the first `n` result bits: `result[i] <- x[31 - i]`. -/
def reflectBits (x : Word) : Nat → Word
  | 0 => 0
  | i + 1 => reflectBits x i ||| (if x.getLsbD (31 - i) then 1#32 <<< i else 0)

/-- `reflect32(x)` of R100. -/
def reflect32 (x : Word) : Word := reflectBits x 32

/-- One stage of R101: swap adjacent groups of `g` bits, `mask` selecting the lower of each pair. -/
def swapGroups (g : Nat) (mask x : Word) : Word := ((x >>> g) &&& mask) ||| ((x &&& mask) <<< g)

/-- The five-stage network of R101. Informative: the block's function is `reflect32`. -/
def reflectNetwork (x : Word) : Word :=
  swapGroups 16 0x0000FFFF (swapGroups 8 0x00FF00FF (swapGroups 4 0x0F0F0F0F
    (swapGroups 2 0x33333333 (swapGroups 1 0x55555555 x))))

/-- RFL (R102). -/
def execRfl (s : State) : Host.Outcome State Fault Refusal :=
  let r := reflect32 s.data
  .next ({ s with refl := r }.respond r)

end Sys2Proof.Machine
end

