-- ==== Sys2Proof/Machine/Hash.lean ====
section
/-! DEFINITION. The hash extractor (42_hash): the CRC first, then the reflection, then the top six
bits (90_conflicts C2). -/

namespace Sys2Proof.Machine

/-- The top six bits of a word: `(r >> 26) & 0x3F`, that is `r[31:26]` (R130, R131). -/
def topSix (r : Word) : Index := r.extractLsb' 26 6

/-- `hash_index(s)` of R130. Irreducible, so that comparing states never evaluates it. -/
@[irreducible] def hashIndex (bytes : List Byte) : Index := topSix (reflect32 (crcBytes bytes))

/-- The datapath HASH and HASHMAC share (R131): RES, REFL and IDX from CRC. -/
def State.extractHash (s : State) : State :=
  let res := s.crc ^^^ 0xFFFFFFFF
  let refl := reflect32 res
  { s with res := res, refl := refl, idx := topSix refl }

/-- HASH (R131). -/
def execHash (s : State) : Host.Outcome State Fault Refusal :=
  let t := s.extractHash
  .next (t.respond (t.idx.setWidth 32))

/-- HASHMAC (R132): InvalidInput unless exactly 6 bytes have been counted. -/
def execHashmac (s : State) : Host.Outcome State Fault Refusal :=
  if s.cnt = 6 then
    let t := s.extractHash
    .next (t.respond (t.idx.setWidth 32))
  else .next (s.raise .invalidInput)

end Sys2Proof.Machine
end

