-- ==== Sys2Proof/Machine/Collision.lean ====
section
/-! DEFINITION. The collision analyzer (45_collision). -/

namespace Sys2Proof.Machine

/-- The bucket of one pair for a prefix: `hash_index(prefix_bytes() ++ [d, p])` (R161, R166). -/
def pairBucket (pfx : Word) (n : Half) : Index :=
  hashIndex (prefixBytes pfx ++ [pairD n, pairP n])

/-- All 65536 pairs in enumeration order, packed: d outer, p inner, both ascending (R160). Irreducible, so
that comparing states never lists them. -/
@[irreducible] def allPairs : List Half :=
  (List.range 256).flatMap fun d =>
    (List.range 256).map fun p => packPair (BitVec.ofNat 8 d) (BitVec.ofNat 8 p)

/-- The enumeration: every pair with its bucket, in enumeration order (R160, R161). -/
def enumeration (pfx : Word) : List (Half × Index) :=
  allPairs.map fun n => (n, pairBucket pfx n)

/-- The list L_k of R161, taken from an enumeration: the pairs of bucket `k` in enumeration order. -/
def bucketOf (pairs : List (Half × Index)) (k : Index) : List Half :=
  (pairs.filter fun e => e.2 == k).map Prod.fst

/-- The 64 bucket numbers in ascending order. -/
def bucketNumbers : List Index := (List.range 64).map (BitVec.ofNat 6)

/-- CNTMEM as R161 defines it: `CNTMEM[k] = len(L_k)`. -/
def countMemory (pairs : List (Half × Index)) : Memory 17 :=
  bucketNumbers.map fun k => (k.toNat, BitVec.ofNat 17 (bucketOf pairs k).length)

/-- The concatenation L_0 ++ L_1 ++ ... ++ L_63 (R161). -/
def concatenatedLists (pairs : List (Half × Index)) : List Half :=
  bucketNumbers.flatMap fun k => bucketOf pairs k

/-- Entries laid out from index `n` upwards. -/
def layOutFrom : Nat → List Half → Memory 16
  | _, [] => []
  | n, v :: vs => (n, v) :: layOutFrom (n + 1) vs

/-- LISTMEM as R161 defines it: the concatenated lists from index 0. -/
def listMemory (pairs : List (Half × Index)) : Memory 16 := layOutFrom 0 (concatenatedLists pairs)

/-- `BASE(k)` of R161: the sum of CNTMEM[j] for j below k, computed exactly. -/
def bucketBase (s : State) (k : Index) : Nat :=
  ((List.range k.toNat).map fun j => (cntRead s (BitVec.ofNat 6 j)).toNat).sum

/-- CRUN (R160), by R161's definition of its result, which is the normative one (log entry 10). -/
def execCrun (s : State) : Host.Outcome State Fault Refusal :=
  let pairs := enumeration s.pfx
  .next ({ s with
    cntmem := countMemory pairs
    listmem := listMemory pairs
    status := setMapValid s.status }.respond 0x00010000)

/-- CCNT (R163). -/
def execCcnt (k : Index) (s : State) : Host.Outcome State Fault Refusal :=
  if s.status.cv then .next (s.respond ((cntRead s k).setWidth 32))
  else .next (s.raise .notReady)

/-- CBASE (R164). The sum is exact; a map CRUN built keeps it within 17 bits (log entry 12). -/
def execCbase (k : Index) (s : State) : Host.Outcome State Fault Refusal :=
  if s.status.cv then .next (s.respond (BitVec.ofNat 32 (bucketBase s k)))
  else .next (s.raise .notReady)

/-- CLIST (R165). -/
def execClist (imm16 : Half) (s : State) : Host.Outcome State Fault Refusal :=
  if s.status.cv then .next (s.respond ((listRead s imm16).setWidth 32))
  else .next (s.raise .notReady)

/-- CPROBE (R166). -/
def execCprobe (imm16 : Half) (s : State) : Host.Outcome State Fault Refusal :=
  .next (s.respond ((pairBucket s.pfx imm16).setWidth 32))

/-! R160's pseudocode itself, a loop over single writes. `execCrun` does not call it: that it reaches
R161's result is a statement about it. -/

/-- The first pass: `cnt[k]` after the pairs of an enumeration. -/
def tally (pairs : List (Half × Index)) : Index → Nat :=
  pairs.foldl (fun cnt e => fun k => if k = e.2 then cnt k + 1 else cnt k) (fun _ => 0)

/-- `b[k]` at the start of the second pass: the running base when the loop over buckets reaches `k`. -/
def startBase (cnt : Index → Nat) (k : Index) : Nat :=
  ((List.range k.toNat).map fun j => cnt (BitVec.ofNat 6 j)).sum

/-- The loop over buckets: `CntWrite(k, cnt[k])` for k ascending. -/
def writeCounts (cnt : Index → Nat) (m : Memory 17) : Memory 17 :=
  bucketNumbers.foldl (fun m k => cntWrite m k (BitVec.ofNat 17 (cnt k))) m

/-- The second pass: `ListWrite(b[k], (d << 8) | p); b[k] <- b[k] + 1` for each pair. -/
def writeLists : List (Half × Index) → (Index → Nat) → Memory 16 → Memory 16
  | [], _, m => m
  | e :: pairs, b, m =>
    writeLists pairs (fun k => if k = e.2 then b k + 1 else b k)
      (listWrite m (BitVec.ofNat 16 (b e.2)) e.1)

/-- Both memories after R160's pseudocode. -/
def crunByLoops (pairs : List (Half × Index)) (cntmem : Memory 17) (listmem : Memory 16) :
    Memory 17 × Memory 16 :=
  let cnt := tally pairs
  (writeCounts cnt cntmem, writeLists pairs (startBase cnt) listmem)

/-- R68's merge of an enumeration split across workers: each worker's lists, concatenated per bucket. -/
def mergedBucket (workers : List (List (Half × Index))) (k : Index) : List Half :=
  workers.flatMap fun pairs => bucketOf pairs k

end Sys2Proof.Machine
end

