-- ==== Sys2Proof/Machine/Control.lean ====
section
/-! DEFINITION. Register transfer and control (46_control). -/

namespace Sys2Proof.Machine

/-- NOP (R180). -/
def execNop (s : State) : Host.Outcome State Fault Refusal := .next (s.respond 0)

/-- LDLO (R181). -/
def execLdlo (imm16 : Half) (s : State) : Host.Outcome State Fault Refusal :=
  let d := withLowHalf s.data imm16
  .next ({ s with data := d }.respond d)

/-- LDHI (R182). -/
def execLdhi (imm16 : Half) (s : State) : Host.Outcome State Fault Refusal :=
  let d := withHighHalf s.data imm16
  .next ({ s with data := d }.respond d)

/-- RD (R183): IllegalCommand for a reserved number. -/
def execRd (rn : RegNum) (s : State) : Host.Outcome State Fault Refusal :=
  match regOfNum rn with
  | some r => .next (s.respond (s.readReg r))
  | none => .next (s.raise .illegalCommand)

/-- WR (R184): IllegalCommand for a reserved number or a read-only register. -/
def execWr (rn : RegNum) (s : State) : Host.Outcome State Fault Refusal :=
  match (regOfNum rn).bind fun r => s.writeReg r s.data with
  | some t => .next (t.respond s.data)
  | none => .next (s.raise .illegalCommand)

/-- CLRERR (R185). -/
def execClrerr (s : State) : Host.Outcome State Fault Refusal := .next (s.clearErrors.respond 0)

/-- SRST (R189). -/
def execSrst (s : State) : Host.Outcome State Fault Refusal := .next (s.softReset.respond 0)

end Sys2Proof.Machine
end

