-- ==== Sys2Proof/Machine/Mapper.lean ====
section
/-! DEFINITION. The hash-to-register-bit mapper (43_mapper). -/

namespace Sys2Proof.Machine

/-- `onehot(i)` of R140: the pair (HTH word, HTL word) with the one bit of index `i` set. -/
def onehot (i : Index) : Word × Word :=
  if i &&& 0x20 ≠ 0 then (1#32 <<< (i &&& 0x1F).toNat, 0)
  else (0, 1#32 <<< (i &&& 0x1F).toNat)

/-- OR the bit of an index into the bitmap (R143, R144). -/
def State.orIndex (s : State) (i : Index) : State :=
  { s with hth := s.hth ||| (onehot i).1, htl := s.htl ||| (onehot i).2 }

/-- MAPCLR (R141). -/
def execMapclr (s : State) : Host.Outcome State Fault Refusal :=
  .next ({ s with hth := 0, htl := 0 }.respond 0)

/-- MAPSET (R142). -/
def execMapset (s : State) : Host.Outcome State Fault Refusal :=
  .next ({ s with hth := (onehot s.idx).1, htl := (onehot s.idx).2 }.respond 0)

/-- MAPOR (R143). -/
def execMapor (s : State) : Host.Outcome State Fault Refusal :=
  .next ((s.orIndex s.idx).respond 0)

/-- MAPORI (R144). -/
def execMapori (k : Index) (s : State) : Host.Outcome State Fault Refusal :=
  .next ((s.orIndex k).respond 0)

end Sys2Proof.Machine
end

