-- ==== Sys2Proof/Machine/Verify.lean ====
section
/-! DEFINITION. The vector verifier (44_verify) and the test-vector ROM (R37). -/

namespace Sys2Proof.Machine

/-- One entry of VROM: a 6-byte sequence and a 6-bit expected index (R37). -/
structure TestVector where
  bytes    : Vector Byte 6
  expected : Index
  deriving DecidableEq, Repr

/-- `ROMRead(v)`: the fixed contents of VROM (R37). -/
def romRead : Fin 3 → TestVector
  | 0 => { bytes := #v[0x1f, 0x52, 0x41, 0x9c, 0xb6, 0xaf], expected := 0x2c }
  | 1 => { bytes := #v[0xa0, 0x0a, 0x98, 0x00, 0x00, 0x45], expected := 0x07 }
  | 2 => { bytes := #v[0x53, 0x43, 0x41, 0x00, 0x00, 0x13], expected := 0x29 }

/-- The index computed for a vector (R150). -/
def vectorIndex (v : TestVector) : Index := hashIndex v.bytes.toList

/-- Whether a vector's computed index is its expected one (R150). -/
def vectorMatches (v : TestVector) : Bool := vectorIndex v == v.expected

/-- VSTAT as VERIFY computes it from a table of three vectors (R150). A mismatch clears the vector's
M bit and ALLPASS and is no error. -/
def verifyTable (rom : Fin 3 → TestVector) : Vstat :=
  assembleVstat (vectorIndex (rom 0)) (vectorIndex (rom 1)) (vectorIndex (rom 2))
    (vectorMatches (rom 0)) (vectorMatches (rom 1)) (vectorMatches (rom 2))

/-- VERIFY (R150). -/
def execVerify (s : State) : Host.Outcome State Fault Refusal :=
  let v := verifyTable romRead
  .next ({ s with vstat := v }.respond (vstatWord v))

end Sys2Proof.Machine
end

