-- ==== Sys2Proof/Machine/Dispatch.lean ====
section
/-! DEFINITION. One arm per command of R78, in the opcode map's order, each the command's own meaning. -/

namespace Sys2Proof.Machine

def exec (i : Instr) (s : State) : Host.Outcome State Fault Refusal :=
  match i with
  | .nop => Sys2Proof.Machine.execNop s
  | .reflect => Sys2Proof.Machine.execRfl s
  | .init => Sys2Proof.Machine.execInit s
  | .byte imm8 => Sys2Proof.Machine.execByte imm8 s
  | .feedh => Sys2Proof.Machine.execFeedh s
  | .feedw => Sys2Proof.Machine.execFeedw s
  | .final => Sys2Proof.Machine.execFinal s
  | .hash => Sys2Proof.Machine.execHash s
  | .hashmac => Sys2Proof.Machine.execHashmac s
  | .mapclr => Sys2Proof.Machine.execMapclr s
  | .mapset => Sys2Proof.Machine.execMapset s
  | .mapor => Sys2Proof.Machine.execMapor s
  | .mapori k => Sys2Proof.Machine.execMapori k s
  | .verify => Sys2Proof.Machine.execVerify s
  | .crun => Sys2Proof.Machine.execCrun s
  | .ccnt k => Sys2Proof.Machine.execCcnt k s
  | .cbase k => Sys2Proof.Machine.execCbase k s
  | .clist imm16 => Sys2Proof.Machine.execClist imm16 s
  | .cprobe imm16 => Sys2Proof.Machine.execCprobe imm16 s
  | .ldlo imm16 => Sys2Proof.Machine.execLdlo imm16 s
  | .ldhi imm16 => Sys2Proof.Machine.execLdhi imm16 s
  | .rd rn => Sys2Proof.Machine.execRd rn s
  | .wr rn => Sys2Proof.Machine.execWr rn s
  | .clrerr => Sys2Proof.Machine.execClrerr s
  | .srst => Sys2Proof.Machine.execSrst s

end Sys2Proof.Machine
end

