-- ==== Sys2Proof/Machine/Port.lean ====
section
/-! DEFINITION. The host port (R200, R212, R219 to R223, R230): taking a command word, delivering a
response, reset, and what one step of the block does with the host's next action. -/

namespace Sys2Proof.Machine

/-- Execute one accepted command word (R220 item 2): decode, then the command's rule. A word that does
not decode raises IllegalCommand and has no other effect (R79). -/
def runWord (w : Word) (s : State) : Host.Outcome State Fault Refusal :=
  match decode w with
  | .ok i => exec i s
  | .error _ => .next (s.raise .illegalCommand)

/-- Deliver the response to the host (R220 item 3, R222): it joins the delivered ones, and the block
can accept a command again. With nothing offered, nothing is delivered (log entry 5). -/
def State.deliver (s : State) : State :=
  match s.rsp with
  | some r => { s with rsp := none, taken := s.taken ++ [r] }
  | none => s

/-- The host takes the response. A code 4..15 means a block outside the spec (R201, U11). -/
def takeResponse (s : State) : Host.Outcome State Fault Refusal :=
  match s.rsp with
  | some r => if r.code.toNat < 4 then .next s.deliver else .fault .reservedResponseCode
  | none => .next s.deliver

/-- The reset input (R230): the reset state. Responses already delivered are the host's own, and its
later actions are unaffected. A response not yet taken is dropped (log entry 4). -/
def State.hardReset (s : State) : State :=
  { State.reset with taken := s.taken, host := s.host }

/-- The block can accept a command: no response is waiting to be taken (R220, R221's cmd_ready). -/
def State.ready (s : State) : Bool := s.rsp.isNone

/-- What the block does with the host's next action. With none it idles, holding all state (R219). A
command offered while a response waits is not accepted, and the block holds its state (R222, U12). The
actions are met strictly in order, so a take or reset listed after such an offer is never met, though
R221 and R222 let a host take or reset while it offers a word: the list is the order in which the acts
take effect, and such a host is listed with the take or reset first (DESIGN CHOICE, unsafe; log entry
18). -/
def portStep (s : State) : Host.Outcome State Fault Refusal :=
  match s.host with
  | [] => .next s
  | .issue w :: rest => if s.ready then runWord w { s with host := rest } else .next s
  | .take :: rest => takeResponse { s with host := rest }
  | .reset :: rest => .next (State.hardReset { s with host := rest })
  | .resetDuring _ :: rest => if s.ready then .next (State.hardReset { s with host := rest }) else .next s

/-- `s` with a command word as the host's next action, and the previous response, if one was still
waiting, taken first, as the host must (R222). -/
def State.offer (s : State) (w : Word) : State :=
  { s.deliver with host := .issue w :: s.host }

/-- Execute commands one after another, each response left behind by the next: the order of R62,
without the port. -/
def execAll : List Instr → State → Host.Outcome State Fault Refusal
  | [], s => .next s
  | i :: is, s =>
    match exec i s with
    | .next t => execAll is t
    | .fault r => .fault r
    | .refused r => .refused r

end Sys2Proof.Machine
end

