-- ==== Sys2Proof/Machine/Step.lean ====
section
/-! DEFINITION. One step of the block, and how a command is placed where the step takes it. -/

namespace Sys2Proof.Machine

/-- One step (R220): the block meets the host's next action. -/
def step (s : State) : Host.Outcome State Fault Refusal := portStep s

/-- `s` with the command of an opcode-table word offered as the host's next action, so that the next
step accepts and executes it (log entries 2, 13). -/
def State.withFetchWord (s : State) (nbits w : Nat) : State := s.offer (tableWord nbits w)

end Sys2Proof.Machine
end

