-- ==== Sys2Proof/Machine/Assembler.lean ====
section
/-! DEFINITION. The assembler's conventions (R85, R86): pseudo-commands, operand checks, and source
lines. The block sees only the resulting commands. What R85 leaves open about text is log entry 17. -/

namespace Sys2Proof.Machine

/-- LDI (R86): the high half, then the low half. -/
def ldiCommands (imm32 : Word) : List Instr :=
  [.ldhi (imm32.extractLsb' 16 16), .ldlo (imm32.extractLsb' 0 16)]

/-- FEED6 (R86). -/
def feed6Commands (b0 b1 b2 b3 b4 b5 : Byte) : List Instr :=
  ldiCommands ((b0.setWidth 32 <<< 24) ||| (b1.setWidth 32 <<< 16) ||| (b2.setWidth 32 <<< 8)
    ||| b3.setWidth 32) ++ [.feedw, .ldlo (packPair b4 b5), .feedh]

/-- The real commands a pseudo-command stands for (R86). -/
def expandPseudo : Pseudo → List Instr
  | .ldi imm32 => ldiCommands imm32
  | .feed6 b0 b1 b2 b3 b4 b5 => feed6Commands b0 b1 b2 b3 b4 b5
  | .machash b0 b1 b2 b3 b4 b5 => .init :: (feed6Commands b0 b1 b2 b3 b4 b5 ++ [.hashmac])
  | .setpfx imm32 => ldiCommands imm32 ++ [.wr 8]
  | .csel d p => [.cprobe (packPair d p)]

/-- The number of a register written by its name (R85). -/
def regNameNumber (name : String) : Option Nat :=
  ["CRC", "CNT", "RES", "REFL", "IDX", "HTH", "HTL", "DATA", "PREFIX", "STATUS", "VSTAT"].findIdx?
    (· == name)

/-- The width of the operand of a format; none where it has no operand (R72 to R76). -/
def operandWidth : Format → Option Nat
  | .n => none
  | .b => some 8
  | .k => some 6
  | .r => some 4
  | .i => some 16

/-- A real command from a line (R85): the operand must be there exactly if the format has one, and
must fit its field. -/
def assembleReal (line : AsmLine) : Option Instr :=
  match opcodeTable.find? fun row => row.mnemonic == line.mnemonic with
  | none => none
  | some row =>
    match operandWidth row.format, line.operands with
    | none, [] => some (row.operands (rowMatch row))
    | some width, [n] =>
      if fitsField width n then some (row.operands (rowMatch row ||| BitVec.ofNat 32 n)) else none
    | _, _ => none

/-- The pseudo-command of a line (R86), its operands checked to fit. -/
def pseudoOfLine (line : AsmLine) : Option Pseudo :=
  match line.mnemonic, line.operands with
  | "LDI", [v] => if fitsField 32 v then some (.ldi (BitVec.ofNat 32 v)) else none
  | "SETPFX", [v] => if fitsField 32 v then some (.setpfx (BitVec.ofNat 32 v)) else none
  | "CSEL", [d, p] =>
    if [d, p].all (fitsField 8) then some (.csel (BitVec.ofNat 8 d) (BitVec.ofNat 8 p)) else none
  | "FEED6", [b0, b1, b2, b3, b4, b5] =>
    if [b0, b1, b2, b3, b4, b5].all (fitsField 8) then
      some (.feed6 (BitVec.ofNat 8 b0) (BitVec.ofNat 8 b1) (BitVec.ofNat 8 b2) (BitVec.ofNat 8 b3)
        (BitVec.ofNat 8 b4) (BitVec.ofNat 8 b5))
    else none
  | "MACHASH", [b0, b1, b2, b3, b4, b5] =>
    if [b0, b1, b2, b3, b4, b5].all (fitsField 8) then
      some (.machash (BitVec.ofNat 8 b0) (BitVec.ofNat 8 b1) (BitVec.ofNat 8 b2) (BitVec.ofNat 8 b3)
        (BitVec.ofNat 8 b4) (BitVec.ofNat 8 b5))
    else none
  | _, _ => none

/-- The commands of a line: a real command, or a pseudo-command's expansion (R85, R86). -/
def assemble (line : AsmLine) : Option (List Instr) :=
  match assembleReal line with
  | some i => some [i]
  | none => (pseudoOfLine line).map expandPseudo

/-- The value of a digit in base 16; a base-10 reader checks it against its base. -/
def digitValue (c : Char) : Option Nat :=
  if '0' ≤ c ∧ c ≤ '9' then some (c.toNat - 48)
  else if 'a' ≤ c ∧ c ≤ 'f' then some (c.toNat - 87)
  else if 'A' ≤ c ∧ c ≤ 'F' then some (c.toNat - 55)
  else none

/-- Digits in a base, most significant first, after a value read so far. -/
def readDigits (base : Nat) : Nat → List Char → Option Nat
  | acc, [] => some acc
  | acc, c :: cs =>
    match digitValue c with
    | some d => if d < base then readDigits base (base * acc + d) cs else none
    | none => none

/-- An immediate in decimal or with the prefix 0x (R85). -/
def readNumber : List Char → Option Nat
  | [] => none
  | '0' :: 'x' :: [] => none
  | '0' :: 'x' :: digits => readDigits 16 0 digits
  | digits => readDigits 10 0 digits

/-- An operand: an immediate, or for a register operand a register's name (R85). -/
def readOperand (registerOperand : Bool) (word : List Char) : Option Nat :=
  match readNumber word with
  | some n => some n
  | none => if registerOperand then regNameNumber (String.ofList word) else none

/-- Whether the mnemonic's operand is a register (format R). -/
def takesRegister (mnemonic : String) : Bool :=
  opcodeTable.any fun row => row.mnemonic == mnemonic && row.format == .r

/-- The words of a line: runs of characters other than spaces and tabs. -/
def cutWords : List Char → List Char → List (List Char)
  | [], [] => []
  | run, [] => [run]
  | run, c :: cs =>
    if c = ' ' ∨ c = '\t' then (if run = [] then cutWords [] cs else run :: cutWords [] cs)
    else cutWords (run ++ [c]) cs

/-- The commands of one source line (R85): `;` starts a comment, an empty line gives none, and a line
the assembler refuses gives no answer. -/
def assembleText (source : List Char) : Option (List Instr) :=
  match cutWords [] (source.takeWhile (· ≠ ';')) with
  | [] => some []
  | mnemonic :: operands =>
    let name := String.ofList mnemonic
    match operands.mapM (readOperand (takesRegister name)) with
    | some ns => assemble { mnemonic := name, operands := ns }
    | none => none

end Sys2Proof.Machine
end

