-- ==== Sys2Proof/Safety.lean ====
section
/-! DEFINITION. The terms claims are stated in: invariants of a run, who may write what, bytes fed by a
stream of commands, and the host's script for a list of words. -/

namespace Sys2Proof.Safety

open Sys2Proof.Machine

/-- The response of a command that succeeds (R200). -/
def success (data : Word) : Option Response := some { code := 0, data := data }

/-- The response of a command that fails (R200, R201). -/
def failure (e : Error) : Option Response := some { code := errorCode e, data := 0 }

/-- Both memories are in canonical form: indices strictly rising and within range (R38, R39). -/
def MemoriesCanonical (s : State) : Prop :=
  Memory.wf cntmemSize s.cntmem ∧ Memory.wf listmemSize s.listmem

/-- The pairs of bucket `k` for a prefix, in enumeration order: the list L_k of R161. -/
def bucketList (pfx : Word) (k : Index) : List Half := allPairs.filter fun n => pairBucket pfx n == k

/-- R32: while CV is 1, CNTMEM and LISTMEM hold the collision map of the current PREFIX. -/
def MapCurrent (s : State) : Prop :=
  s.status.cv = true →
    s.cntmem = countMemory (enumeration s.pfx) ∧ s.listmem = listMemory (enumeration s.pfx)

/-- R30, R201: ECODE is 0 while ERR is 0, and the code of an error while ERR is 1. -/
def StatusLegal (f : Status) : Prop :=
  (f.err = false → f.ecode = 0) ∧ (f.err = true → ∃ e : Error, f.ecode = errorCode e)

/-- R33, R151: VSTAT reads 0, or what VERIFY always yields. -/
def VstatLegal (v : Vstat) : Prop := vstatWord v = 0 ∨ vstatWord v = 0x007E91EC

/-- R200, R201: a response is a success with any data, or an error's code with data 0. -/
def ResponseLegal (r : Response) : Prop := r.code = 0 ∨ ∃ e : Error, r.code = errorCode e ∧ r.data = 0

/-- Every response offered or delivered is a legal one. -/
def ResponsesLegal (s : State) : Prop :=
  (∀ r, s.rsp = some r → ResponseLegal r) ∧ ∀ r ∈ s.taken, ResponseLegal r

/-- The commands each register's rule names as its writers (R21 to R29, R33). STATUS has its own rule
(R30, R31): here, the commands that write it when they succeed. -/
def names (r : Reg) (i : Instr) : Bool :=
  match r, i with
  | _, .srst => true
  | .crc, .init | .crc, .byte _ | .crc, .feedh | .crc, .feedw => true
  | .crc, .wr rn => rn == 0
  | .cnt, .init | .cnt, .byte _ | .cnt, .feedh | .cnt, .feedw => true
  | .cnt, .wr rn => rn == 1
  | .res, .final | .res, .hash | .res, .hashmac => true
  | .refl, .reflect | .refl, .hash | .refl, .hashmac => true
  | .idx, .hash | .idx, .hashmac => true
  | .hth, .mapclr | .hth, .mapset | .hth, .mapor | .hth, .mapori _ => true
  | .hth, .wr rn => rn == 5
  | .htl, .mapclr | .htl, .mapset | .htl, .mapor | .htl, .mapori _ => true
  | .htl, .wr rn => rn == 6
  | .data, .ldlo _ | .data, .ldhi _ => true
  | .data, .wr rn => rn == 7
  | .pfx, .wr rn => rn == 8
  | .status, .clrerr | .status, .crun => true
  | .status, .wr rn => rn == 8
  | .vstat, .verify => true
  | _, _ => false

/-- The commands of R59 that read and do nothing else. -/
def readsOnly : Instr → Bool
  | .rd _ | .ccnt _ | .cbase _ | .clist _ | .cprobe _ => true
  | _ => false

/-- The reserved opcode values as R80 lists them. -/
abbrev reservedOpcode (op : Byte) : Prop :=
  let n := op.toNat
  (0x01 ≤ n ∧ n ≤ 0x0F) ∨ (0x11 ≤ n ∧ n ≤ 0x1F) ∨ (0x25 ≤ n ∧ n ≤ 0x2F) ∨ (0x32 ≤ n ∧ n ≤ 0x3F) ∨
  (0x44 ≤ n ∧ n ≤ 0x4F) ∨ (0x51 ≤ n ∧ n ≤ 0x5F) ∨ (0x65 ≤ n ∧ n ≤ 0x6F) ∨ (0x75 ≤ n ∧ n ≤ 0x7E) ∨
  0x80 ≤ n

/-- `Fed s bytes t`: commands that feed bytes (BYTE, FEEDH, FEEDW), in any mix and with any loads of
DATA between them, take `s` to `t` feeding exactly `bytes` in order (R118). -/
inductive Fed : State → List Byte → State → Prop where
  | done (s : State) : Fed s [] s
  | byte {s t u : State} {bs : List Byte} (b : Byte) :
      exec (.byte b) s = .next t → Fed t bs u → Fed s (b :: bs) u
  | feedh {s t u : State} {bs : List Byte} :
      exec .feedh s = .next t → Fed t bs u →
      Fed s (s.data.extractLsb' 8 8 :: s.data.extractLsb' 0 8 :: bs) u
  | feedw {s t u : State} {bs : List Byte} :
      exec .feedw s = .next t → Fed t bs u →
      Fed s (s.data.extractLsb' 24 8 :: s.data.extractLsb' 16 8 :: s.data.extractLsb' 8 8 ::
        s.data.extractLsb' 0 8 :: bs) u
  | ldlo {s t u : State} {bs : List Byte} (v : Half) :
      exec (.ldlo v) s = .next t → Fed t bs u → Fed s bs u
  | ldhi {s t u : State} {bs : List Byte} (v : Half) :
      exec (.ldhi v) s = .next t → Fed t bs u → Fed s bs u

/-- The host's next action is a word the block accepts and that stands for one of these commands. -/
def acceptsOneOf (is : List Instr) (s : State) : Prop :=
  s.rsp = none ∧ ∃ (w : Word) (rest : List HostAction) (i : Instr),
    s.host = .issue w :: rest ∧ decode w = .ok i ∧ i ∈ is

/-- The host's next action asserts the reset input, and the block takes it (R212, R230). -/
def meetsReset (s : State) : Prop :=
  (∃ rest : List HostAction, s.host = .reset :: rest) ∨
  ∃ (w : Word) (rest : List HostAction), s.rsp = none ∧ s.host = .resetDuring w :: rest

/-- What each worker finds when the pairs are split into parts: its own pairs with their buckets (R68). -/
def workerResults (pfx : Word) (parts : List (List Half)) : List (List (Half × Index)) :=
  parts.map fun part => part.map fun n => (n, pairBucket pfx n)

/-- Whether index `j` is in the filter bitmap (R145): bit j[4:0] of (j[5] ? HTH : HTL). -/
def indexPresent (hth htl : Word) (j : Index) : Bool :=
  if j.getLsbD 5 then hth.getLsbD (j.extractLsb' 0 5).toNat else htl.getLsbD (j.extractLsb' 0 5).toNat

/-- A host that issues words one after another and takes each response before the next (R222). -/
def script (words : List Word) : List HostAction := words.flatMap fun w => [.issue w, .take]

/-- The states a run goes through, without its responses: what a word leaves behind (R220). -/
def afterWord (w : Word) (s : State) : State :=
  match runWord w s with
  | .next t => t
  | .fault _ => s
  | .refused _ => s

/-- The responses to words issued one after another from `s` (R223). -/
def responsesTo : List Word → State → List Response
  | [], _ => []
  | w :: ws, s => (afterWord w s).rsp.toList ++ responsesTo ws { afterWord w s with rsp := none }

end Sys2Proof.Safety
end

