-- ==== Sys2Proof/Certificates/Slice0/Obligations.lean ====
section
/-! DEFINITION. The statements for the provers. Each docstring says which rule of spec/ it formalises. -/

open Sys2Proof
open Sys2Proof.Machine
open Sys2Proof.Safety

/-! ## Encoding -/

/-- Words written out from R72 to R78, one or more per family, decode to the commands they stand for. -/
def Obligations.SpecWordsDecode : Prop :=
  decode 0x00000000 = .ok .nop ∧ decode 0x10000000 = .ok .reflect ∧ decode 0x20000000 = .ok .init ∧
  decode 0x2100001F = .ok (.byte 0x1F) ∧ decode 0x23000000 = .ok .feedw ∧
  decode 0x31000000 = .ok .hashmac ∧ decode 0x43000029 = .ok (.mapori 41) ∧
  decode 0x50000000 = .ok .verify ∧ decode 0x6200003F = .ok (.cbase 63) ∧
  decode 0x63000400 = .ok (.clist 0x0400) ∧ decode 0x7000419C = .ok (.ldlo 0x419C) ∧
  decode 0x72000005 = .ok (.rd 5) ∧ decode 0x73000008 = .ok (.wr 8) ∧ decode 0x7F000000 = .ok .srst

/-- Every command, at every value of its operand, decodes from its own word (R72 to R79). -/
def Obligations.DecodeEncodeAgree : Prop :=
  ∀ i : Instr, decode (encode i) = .ok i

/-- A word that decodes is the one word of its command: no bit is ignored (R79, R81). -/
def Obligations.EncodeDecodeAgree : Prop :=
  ∀ (w : Word) (i : Instr), decode w = .ok i → encode i = w

/-- R78 against R79: a word decodes exactly when it selects a row, `(word & mask) == match`, and the
command is that row's; no word selects two rows. -/
def Obligations.TableRowSelectsCommand : Prop :=
  (∀ (w : Word) (i : Instr), decode w = .ok i ↔
    ∃ row ∈ opcodeTable, selectsRow w row = true ∧ i = row.operands w) ∧
  (∀ (w : Word), ∀ row₁ ∈ opcodeTable, ∀ row₂ ∈ opcodeTable,
    selectsRow w row₁ = true → selectsRow w row₂ = true → row₁.mnemonic = row₂.mnemonic)

/-- R80: a word with a reserved opcode value raises IllegalCommand whatever its other bits are. The
reserved values are those, and only those, that no row of R78 assigns. -/
def Obligations.ReservedOpcodesRaise : Prop :=
  (∀ (w : Word) (s : State), reservedOpcode (opField w) →
    runWord w s = .next (s.raise .illegalCommand)) ∧
  (∀ op : Byte, reservedOpcode op ↔ ∀ row ∈ opcodeTable, row.op ≠ op)

/-- R81: an assigned opcode with a nonzero reserved field raises IllegalCommand, format by format; the
only no-op is the word 0. -/
def Obligations.NonzeroReservedFieldsRaise : Prop :=
  (∀ row ∈ opcodeTable, ∀ (w : Word) (s : State), opField w = row.op →
    (match row.format with
      | .n => (w.extractLsb' 0 24).toNat ≠ 0
      | .b => (w.extractLsb' 8 16).toNat ≠ 0
      | .k => (w.extractLsb' 6 18).toNat ≠ 0
      | .r => (w.extractLsb' 4 20).toNat ≠ 0
      | .i => (w.extractLsb' 16 8).toNat ≠ 0) →
    runWord w s = .next (s.raise .illegalCommand)) ∧
  (∀ w : Word, decode w = .ok .nop ↔ w = 0)

/-! ## The host port -/

/-- R220: when the block is ready and the host's next action offers a word that decodes to `i`, the step
is exec of `i`, the action consumed; when the word does not decode, it is the error path (R79). -/
def Obligations.StepRunsDecodedCommand : Prop :=
  ∀ (s : State) (w : Word) (rest : List HostAction), s.rsp = none → s.host = .issue w :: rest →
    (∀ i : Instr, decode w = .ok i → step s = exec i { s with host := rest }) ∧
    (∀ e : DecodeError, decode w = .error e →
      step s = .next (State.raise { s with host := rest } .illegalCommand))

/-- What a step does where it runs no command: it idles with no host action (R219), holds its state
while a response waits and a word is offered (R222, U12), delivers a response the host takes (R220,
R223) unless its code is 4..15, which is the model's one fault (U11), and ignores a take with nothing
offered. The model's readings, not the spec's words: that idling and waiting are steps equal to the
state before, where U12 calls the block stuck (log entry 3); that a take or reset listed after a waiting
offer is not met (log entry 18); that `resetDuring` waits as `issue` does
while a response waits (log entry 4); that a take with nothing offered is used up (log entry 5); that
taking a code 4..15 faults (log entry 6). -/
def Obligations.StepWithoutCommand : Prop :=
  (∀ s : State, s.host = [] → step s = .next s) ∧
  (∀ (s : State) (w : Word) (r : Response) (rest : List HostAction), s.rsp = some r →
    s.host = .issue w :: rest ∨ s.host = .resetDuring w :: rest → step s = .next s) ∧
  (∀ (s : State) (r : Response) (rest : List HostAction), s.rsp = some r → r.code.toNat < 4 →
    s.host = .take :: rest →
    step s = .next { s with rsp := none, taken := s.taken ++ [r], host := rest }) ∧
  (∀ (s : State) (r : Response) (rest : List HostAction), s.rsp = some r → 4 ≤ r.code.toNat →
    s.host = .take :: rest → step s = .fault .reservedResponseCode) ∧
  (∀ (s : State) (rest : List HostAction), s.rsp = none → s.host = .take :: rest →
    step s = .next { s with host := rest })

/-- R212, R230: reset, alone or while a command executes, leaves every register, flag and memory as
after reset, offers no response, and abandons the command without a trace. The model's readings, not
the spec's words: that a response not yet taken is dropped (log entry 4), and that both memories list
nothing, where the spec leaves their contents unspecified (log entry 1). -/
def Obligations.ResetAbandonsCommand : Prop :=
  (∀ (s : State) (rest : List HostAction), s.host = .reset :: rest →
    step s = .next { State.reset with taken := s.taken, host := rest }) ∧
  (∀ (s : State) (w : Word) (rest : List HostAction), s.rsp = none →
    s.host = .resetDuring w :: rest →
    step s = .next { State.reset with taken := s.taken, host := rest })

/-- R200, R201: every command, in every state, completes with exactly one legal response, and touches
neither the delivered responses nor the host's later actions. -/
def Obligations.EveryCommandResponds : Prop :=
  ∀ (i : Instr) (s : State), ∃ t r, exec i s = .next t ∧ t.rsp = some r ∧ ResponseLegal r ∧
    t.taken = s.taken ∧ t.host = s.host

/-- R200, R220, R223: a host that issues any list of words, legal or not, and takes each response before
the next word, gets exactly one response per word, in order, each the response its word gives from
the state the words before it left. -/
def Obligations.OneResponsePerWord : Prop :=
  ∀ (ws : List Word) (s : State), s.rsp = none → s.host = script ws →
    ∃ t, core.run (2 * ws.length) s = .next t ∧ t.host = [] ∧ t.rsp = none ∧
      t.taken = s.taken ++ responsesTo ws s ∧ (responsesTo ws s).length = ws.length

/-! ## Errors -/

/-- R204: the error path sets ERR, writes ECODE only while ERR was 0, responds (code, 0), and changes no
other register, flag or memory; the codes are R201's; and after it any word still executes. -/
def Obligations.ErrorPathIsPrecise : Prop :=
  (∀ (e : Error) (s : State), s.raise e =
    { s with
      status := { err := true, ecode := if s.status.err then s.status.ecode else errorCode e,
                  cv := s.status.cv }
      rsp := some { code := errorCode e, data := 0 } }) ∧
  errorCode .invalidInput = 1 ∧ errorCode .illegalCommand = 2 ∧ errorCode .notReady = 3 ∧
  ∀ (w : Word) (e : Error) (s : State), ∃ t, runWord w (s.raise e) = .next t

/-- R202, R206 and R203's execution part (the table of R205): which command raises which error, and
exactly when. -/
def Obligations.ErrorsByCommand : Prop :=
  ∀ (i : Instr) (s t : State) (r : Response), exec i s = .next t → t.rsp = some r →
    (r.code = 1 ↔ i = .hashmac ∧ s.cnt ≠ 6) ∧
    (r.code = 2 ↔ (∃ rn : RegNum, i = .rd rn ∧ 11 ≤ rn.toNat) ∨
      ∃ rn : RegNum, i = .wr rn ∧ rn.toNat ∉ [0, 1, 5, 6, 7, 8]) ∧
    (r.code = 3 ↔ s.status.cv = false ∧
      ((∃ k, i = .ccnt k) ∨ (∃ k, i = .cbase k) ∨ ∃ n, i = .clist n))

/-- R204, R207: a command that answers an error has changed ERR, ECODE and the response, and nothing
else: no register, no CV, no entry of a memory. -/
def Obligations.FailedCommandChangesOnlyErrorRecord : Prop :=
  ∀ (i : Instr) (s t : State) (r : Response), exec i s = .next t → t.rsp = some r → r.code ≠ 0 →
    { t with status := s.status, rsp := s.rsp } = s ∧ t.status.cv = s.status.cv ∧
    t.status.err = true ∧ r.data = 0

/-- R31: ERR is sticky, ECODE keeps the first error, and a later error changes neither though it answers
its own code. CLRERR and SRST are the only commands that clear them. -/
def Obligations.FirstErrorIsKept : Prop :=
  ∀ (i : Instr) (s t : State), exec i s = .next t → i ≠ .clrerr → i ≠ .srst →
    (s.status.err = true → t.status.err = true ∧ t.status.ecode = s.status.ecode) ∧
    (s.status.err = false → ∀ r, t.rsp = some r →
      if r.code = 0 then t.status.err = false ∧ t.status.ecode = s.status.ecode
      else t.status.err = true ∧ t.status.ecode = r.code) ∧
    (∀ j : Instr, j = .clrerr ∨ j = .srst →
      ∃ u, exec j s = .next u ∧ u.status.err = false ∧ u.status.ecode = 0) ∧
    ∀ e : Error, (s.raise e).rsp = failure e ∧ (s.status.err = true → (s.raise e).status = s.status)

/-! ## The commands, one by one: result, response and frame -/

/-- R180: NOP only answers (0, 0); a word 0x000000nn with nn nonzero is no NOP. -/
def Obligations.NopOnlyResponds : Prop :=
  encode .nop = 0x00000000 ∧ ∀ s : State, exec .nop s = .next { s with rsp := success 0 } ∧
    ∀ b : Byte, b ≠ 0 → runWord (b.setWidth 32) s = .next (s.raise .illegalCommand)

/-- R102, with R100 for the value written: bit i of REFL is bit 31 - i of DATA. -/
def Obligations.RflReversesData : Prop :=
  encode .reflect = 0x10000000 ∧
  ∀ s : State, ∃ v : Word, (∀ i : Nat, i < 32 → v.getLsbD i = s.data.getLsbD (31 - i)) ∧
    exec .reflect s = .next { s with refl := v, rsp := success v }

/-- R110: one byte of CRC is an XOR into the low byte and eight rounds of shift and conditional XOR. -/
def Obligations.CrcStepIsEightRounds : Prop :=
  ∀ (c : Word) (b : Byte), crcStep c b =
    (fun x : Word => if x &&& 1 = 1 then (x >>> 1) ^^^ 0xEDB88320 else x >>> 1)^[8]
      (c ^^^ b.setWidth 32)

/-- R112: INIT loads CRC and clears CNT. -/
def Obligations.InitStartsSequence : Prop :=
  encode .init = 0x20000000 ∧ ∀ s : State, exec .init s =
    .next { s with crc := 0xFFFFFFFF, cnt := 0, rsp := success 0xFFFFFFFF }

/-- R113: BYTE feeds its immediate, with the saturating increment of R117. -/
def Obligations.ByteAdvancesCrc : Prop :=
  (∀ b : Byte, encode (.byte b) = 0x21000000 ||| b.setWidth 32) ∧
  ∀ (b : Byte) (s : State), exec (.byte b) s = .next { s with
    crc := crcStep s.crc b
    cnt := if s.cnt = 0xFFFFFFFF then s.cnt else s.cnt + 1
    rsp := success (crcStep s.crc b) }

/-- R114, R115: FEEDH and FEEDW are two and four BYTE commands over DATA's bytes, most significant
first, in one command with the last one's response. -/
def Obligations.FeedsAreByteCommands : Prop :=
  encode .feedh = 0x22000000 ∧ encode .feedw = 0x23000000 ∧
  ∀ s : State,
    (∃ t, exec .feedh s = .next t ∧
      execAll [.byte (s.data.extractLsb' 8 8), .byte (s.data.extractLsb' 0 8)] s = .next t ∧
      { t with crc := s.crc, cnt := s.cnt, rsp := s.rsp } = s ∧
      t.crc = crcStep (crcStep s.crc (s.data.extractLsb' 8 8)) (s.data.extractLsb' 0 8) ∧
      t.rsp = success t.crc) ∧
    (∃ t, exec .feedw s = .next t ∧
      execAll [.byte (s.data.extractLsb' 24 8), .byte (s.data.extractLsb' 16 8),
        .byte (s.data.extractLsb' 8 8), .byte (s.data.extractLsb' 0 8)] s = .next t ∧
      { t with crc := s.crc, cnt := s.cnt, rsp := s.rsp } = s ∧
      t.crc = crcStep (crcStep (crcStep (crcStep s.crc (s.data.extractLsb' 24 8))
        (s.data.extractLsb' 16 8)) (s.data.extractLsb' 8 8)) (s.data.extractLsb' 0 8) ∧
      t.rsp = success t.crc)

/-- R116: FINAL puts the complement of CRC in RES. -/
def Obligations.FinalInvertsCrc : Prop :=
  encode .final = 0x24000000 ∧
  ∀ s : State, exec .final s = .next { s with res := ~~~s.crc, rsp := success (~~~s.crc) }

/-- R131, R132: HASH always, and HASHMAC exactly when CNT = 6, write RES, REFL and IDX from CRC; HASHMAC
otherwise raises InvalidInput. -/
def Obligations.HashCommandsExtractIndex : Prop :=
  encode .hash = 0x30000000 ∧ encode .hashmac = 0x31000000 ∧
  ∀ s : State, ∃ t,
    t = { s with
      res := s.crc ^^^ 0xFFFFFFFF
      refl := reflect32 (s.crc ^^^ 0xFFFFFFFF)
      idx := ((reflect32 (s.crc ^^^ 0xFFFFFFFF) >>> 26) &&& 0x3F).setWidth 6
      rsp := success ((reflect32 (s.crc ^^^ 0xFFFFFFFF) >>> 26) &&& 0x3F) } ∧
    exec .hash s = .next t ∧
    (s.cnt = 6 → exec .hashmac s = .next t) ∧
    (s.cnt ≠ 6 → exec .hashmac s = .next (s.raise .invalidInput))

/-- R141, R142, with R140 as one 64-bit bitmap: MAPCLR empties it, MAPSET makes it the one bit of IDX. -/
def Obligations.MapClearAndSet : Prop :=
  encode .mapclr = 0x40000000 ∧ encode .mapset = 0x41000000 ∧
  (∀ s : State, exec .mapclr s = .next { s with hth := 0, htl := 0, rsp := success 0 }) ∧
  (∀ s : State, ∃ h l : Word, exec .mapset s = .next { s with hth := h, htl := l, rsp := success 0 } ∧
    h ++ l = (1 : BitVec 64) <<< s.idx.toNat)

/-- R143, R144, with R140 as one 64-bit bitmap: the bit of IDX, or of the immediate, is ORed in. -/
def Obligations.MapOrAddsBit : Prop :=
  encode .mapor = 0x42000000 ∧
  (∀ k : Index, encode (.mapori k) = 0x43000000 ||| k.setWidth 32) ∧
  (∀ s : State, ∃ h l : Word, exec .mapor s = .next { s with hth := h, htl := l, rsp := success 0 } ∧
    h ++ l = (s.hth ++ s.htl) ||| (1 : BitVec 64) <<< s.idx.toNat) ∧
  (∀ (k : Index) (s : State), ∃ h l : Word,
    exec (.mapori k) s = .next { s with hth := h, htl := l, rsp := success 0 } ∧
    h ++ l = (s.hth ++ s.htl) ||| (1 : BitVec 64) <<< k.toNat)

/-- R150, R151: VERIFY writes VSTAT alone, with the three computed indices, every match bit, ALLPASS and
VDONE, and answers 0x007E91EC. Over any other table of vectors a mismatch would clear that vector's M
bit and ALLPASS, and be no error; the fields stand where R33 puts them. -/
def Obligations.VerifyWritesKnownStatus : Prop :=
  encode .verify = 0x50000000 ∧
  ∀ s : State, ∃ v : Vstat, exec .verify s = .next { s with vstat := v, rsp := success 0x007E91EC } ∧
    vstatWord v = 0x007E91EC ∧
    v = { vidx0 := 44, vidx1 := 7, vidx2 := 41, m0 := true, m1 := true, m2 := true,
          allpass := true, vdone := true } ∧
    v = verifyTable romRead ∧
  ∀ (rom : Fin 3 → TestVector) (j : Fin 3),
    ((vstatWord (verifyTable rom)).getLsbD (18 + j.val) = true ↔
      hashIndex (rom j).bytes.toList = (rom j).expected) ∧
    (vstatWord (verifyTable rom)).extractLsb' (6 * j.val) 6 = hashIndex (rom j).bytes.toList ∧
    ((vstatWord (verifyTable rom)).getLsbD 21 = true ↔
      ∀ i : Fin 3, hashIndex (rom i).bytes.toList = (rom i).expected) ∧
    (vstatWord (verifyTable rom)).getLsbD 22 = true ∧
    (vstatWord (verifyTable rom)).extractLsb' 23 9 = 0

/-- R160 and R161: CRUN writes CNTMEM, LISTMEM and CV and nothing else, and answers 0x00010000; after it
CNTMEM holds the length of every bucket list, LISTMEM the lists one after another from BASE(k), and
each list the pairs of its bucket in enumeration order. -/
def Obligations.CrunBuildsCollisionMap : Prop :=
  encode .crun = 0x60000000 ∧
  ∀ s : State, ∃ t, exec .crun s = .next t ∧ t.rsp = success 0x00010000 ∧
    t.status = { s.status with cv := true } ∧
    { t with cntmem := s.cntmem, listmem := s.listmem, status := s.status, rsp := s.rsp } = s ∧
    ∀ k : Index, (cntRead t k).toNat = (bucketList s.pfx k).length ∧
      bucketBase t k = (((List.range k.toNat).map fun j =>
        (bucketList s.pfx (BitVec.ofNat 6 j)).length)).sum ∧
      ∀ (n : Nat) (h : n < (bucketList s.pfx k).length),
        bucketBase t k + n < 65536 ∧
        listRead t (BitVec.ofNat 16 (bucketBase t k + n)) = (bucketList s.pfx k)[n]

/-- R163, R164, R165: with CV = 1, CCNT, CBASE and CLIST answer the entry, the base or the pair they
name and change nothing; with CV = 0 they raise NotReady. That CBASE answers the exact sum in 32 bits,
also where it would pass the 17 bits of R57, is the model's reading (log entry 12). -/
def Obligations.MapReadsAnswer : Prop :=
  (∀ k : Index, encode (.ccnt k) = 0x61000000 ||| k.setWidth 32 ∧
    encode (.cbase k) = 0x62000000 ||| k.setWidth 32) ∧
  (∀ n : Half, encode (.clist n) = 0x63000000 ||| n.setWidth 32) ∧
  ∀ (s : State) (k : Index) (n : Half),
    (s.status.cv = true →
      exec (.ccnt k) s = .next { s with rsp := success ((cntRead s k).setWidth 32) } ∧
      exec (.cbase k) s = .next { s with rsp := success (BitVec.ofNat 32
        ((List.range k.toNat).map fun j => (cntRead s (BitVec.ofNat 6 j)).toNat).sum) } ∧
      exec (.clist n) s = .next { s with rsp := success ((listRead s n).setWidth 32) }) ∧
    (s.status.cv = false →
      exec (.ccnt k) s = .next (s.raise .notReady) ∧ exec (.cbase k) s = .next (s.raise .notReady) ∧
      exec (.clist n) s = .next (s.raise .notReady))

/-- R166: CPROBE answers the bucket of one pair for the current PREFIX, whatever CV is, and changes no
state. The six bytes are PREFIX's from the most significant down, then d, then p. -/
def Obligations.CprobeAnswersBucket : Prop :=
  (∀ n : Half, encode (.cprobe n) = 0x64000000 ||| n.setWidth 32) ∧
  ∀ (s : State) (n : Half), exec (.cprobe n) s = .next { s with
    rsp := success ((hashIndex
      [s.pfx.extractLsb' 24 8, s.pfx.extractLsb' 16 8, s.pfx.extractLsb' 8 8, s.pfx.extractLsb' 0 8,
       n.extractLsb' 8 8, n.extractLsb' 0 8]).setWidth 32) }

/-- R181, R182: each load writes its own half of DATA, keeps the other, and answers DATA. -/
def Obligations.LoadsWriteTheirHalf : Prop :=
  (∀ v : Half, encode (.ldlo v) = 0x70000000 ||| v.setWidth 32 ∧
    encode (.ldhi v) = 0x71000000 ||| v.setWidth 32) ∧
  ∀ (s : State) (v : Half),
    exec (.ldlo v) s = .next { s with
      data := s.data.extractLsb' 16 16 ++ v
      rsp := success (s.data.extractLsb' 16 16 ++ v) } ∧
    exec (.ldhi v) s = .next { s with
      data := v ++ s.data.extractLsb' 0 16
      rsp := success (v ++ s.data.extractLsb' 0 16) }

/-- R183, with the read views of R30, R33, R34, R35: RD answers the register its number names, changing
nothing, and raises IllegalCommand for 11..15. -/
def Obligations.RdAnswersRegister : Prop :=
  (∀ rn : RegNum, encode (.rd rn) = 0x72000000 ||| rn.setWidth 32) ∧
  ∀ (s : State) (rn : RegNum),
    (11 ≤ rn.toNat → exec (.rd rn) s = .next (s.raise .illegalCommand)) ∧
    (∀ v : Word, [s.crc, s.cnt, s.res, s.refl, s.idx.setWidth 32, s.hth, s.htl, s.data, s.pfx,
        statusWord s.status, vstatWord s.vstat][rn.toNat]? = some v →
      exec (.rd rn) s = .next { s with rsp := success v })

/-- R30, R33: where the fields of STATUS and VSTAT stand in the words RD answers, and that every
reserved bit reads 0. -/
def Obligations.StatusFieldsReadInPlace : Prop :=
  (∀ f : Status, (statusWord f).getLsbD 0 = f.err ∧ (statusWord f).extractLsb' 1 3 = 0 ∧
    (statusWord f).extractLsb' 4 4 = f.ecode ∧ (statusWord f).getLsbD 8 = f.cv ∧
    (statusWord f).extractLsb' 9 23 = 0) ∧
  (∀ v : Vstat, (vstatWord v).extractLsb' 0 6 = v.vidx0 ∧ (vstatWord v).extractLsb' 6 6 = v.vidx1 ∧
    (vstatWord v).extractLsb' 12 6 = v.vidx2 ∧ (vstatWord v).getLsbD 18 = v.m0 ∧
    (vstatWord v).getLsbD 19 = v.m1 ∧ (vstatWord v).getLsbD 20 = v.m2 ∧
    (vstatWord v).getLsbD 21 = v.allpass ∧ (vstatWord v).getLsbD 22 = v.vdone ∧
    (vstatWord v).extractLsb' 23 9 = 0)

/-- R184: WR writes DATA to the register its number names, if that is CRC, CNT, HTH, HTL, DATA (no
change) or PREFIX (which clears CV), answers DATA, and raises IllegalCommand for any other number. That
WR 8 leaves both memories as they are is the model's reading, where U4 allows any contents (log entry
11). -/
def Obligations.WrWritesRegister : Prop :=
  (∀ rn : RegNum, encode (.wr rn) = 0x73000000 ||| rn.setWidth 32) ∧
  ∀ s : State,
    exec (.wr 0) s = .next { s with crc := s.data, rsp := success s.data } ∧
    exec (.wr 1) s = .next { s with cnt := s.data, rsp := success s.data } ∧
    exec (.wr 5) s = .next { s with hth := s.data, rsp := success s.data } ∧
    exec (.wr 6) s = .next { s with htl := s.data, rsp := success s.data } ∧
    exec (.wr 7) s = .next { s with rsp := success s.data } ∧
    exec (.wr 8) s = .next { s with
      pfx := s.data
      status := { s.status with cv := false }
      rsp := success s.data } ∧
    ∀ rn : RegNum, rn.toNat ∉ [0, 1, 5, 6, 7, 8] →
      exec (.wr rn) s = .next (s.raise .illegalCommand)

/-- R185: CLRERR clears ERR and ECODE, keeps CV, and changes nothing else. -/
def Obligations.ClrerrClearsRecord : Prop :=
  encode .clrerr = 0x74000000 ∧
  ∀ s : State, exec .clrerr s = .next { s with
    status := { err := false, ecode := 0, cv := s.status.cv }, rsp := success 0 }

/-- R43, R189, R232: SRST puts every register and flag at the value the spec gives for reset, leaves
nothing listed in either memory (contents unspecified, log entry 1), and answers (0, 0); those values
are the ones of the state after reset. -/
def Obligations.SrstGivesResetState : Prop :=
  encode .srst = 0x7F000000 ∧
  ∀ s : State, ∃ t, exec .srst s = .next t ∧
    t = { State.reset with rsp := success 0, taken := s.taken, host := s.host } ∧
    t.crc = 0xFFFFFFFF ∧ t.cnt = 0 ∧ t.res = 0 ∧ t.refl = 0 ∧ t.idx = 0 ∧ t.hth = 0 ∧ t.htl = 0 ∧
    t.data = 0 ∧ t.pfx = 0 ∧ statusWord t.status = 0 ∧ vstatWord t.vstat = 0

/-! ## Laws of the units -/

/-- R100: reflection is its own inverse, and bit i of the result is bit 31 - i of the input. -/
def Obligations.ReflectIsInvolution : Prop :=
  ∀ x : Word, reflect32 (reflect32 x) = x ∧
    ∀ i : Nat, i < 32 → (reflect32 x).getLsbD i = x.getLsbD (31 - i)

/-- R101: the five masked swap stages compute the same function as R100. -/
def Obligations.ReflectNetworkAgrees : Prop :=
  ∀ x : Word, reflectNetwork x = reflect32 x

/-- R117: the CRC step is linear over GF(2) and, for each byte, a bijection of the register. -/
def Obligations.CrcStepLinearBijective : Prop :=
  (∀ (c₁ c₂ : Word) (b : Byte), crcStep c₁ b ^^^ crcStep c₂ b = crcStep (c₁ ^^^ c₂) 0) ∧
  ∀ b : Byte, Function.Bijective fun c : Word => crcStep c b

/-- R118: INIT and then any mix of feeding commands, with any loads of DATA between them, leaves the CRC
register and the byte count of exactly the bytes fed, and FINAL then gives `crc_bytes` of them. -/
def Obligations.FedBytesGiveCrc : Prop :=
  ∀ (s t u : State) (bytes : List Byte), exec .init s = .next t → Fed t bytes u →
    u.crc = crcBytes bytes ^^^ 0xFFFFFFFF ∧ u.cnt.toNat = min bytes.length 0xFFFFFFFF ∧
    ∃ v, exec .final u = .next v ∧ v.res = crcBytes bytes

/-- R119: loading and writing a saved CRC and CNT restores them, in either order. -/
def Obligations.SavedCrcRestored : Prop :=
  ∀ (s : State) (c n : Word),
    execAll (expandPseudo (.ldi c) ++ [.wr 0] ++ expandPseudo (.ldi n) ++ [.wr 1]) s =
      .next { s with crc := c, cnt := n, data := n, rsp := success n } ∧
    execAll (expandPseudo (.ldi n) ++ [.wr 1] ++ expandPseudo (.ldi c) ++ [.wr 0]) s =
      .next { s with crc := c, cnt := n, data := c, rsp := success c }

/-- R134: the hash index is the low six bits of the CRC in reverse order. -/
def Obligations.HashIndexIsReversedLowBits : Prop :=
  ∀ (bytes : List Byte) (m : Nat), m < 6 →
    (hashIndex bytes).getLsbD m = (crcBytes bytes).getLsbD (5 - m)

/-- R86, R130, R132: from any state, the commands MACHASH stands for end with IDX the hash index of the
six bytes, RES and REFL with it, DATA as R86 says, and every other register and memory unchanged. -/
def Obligations.MachashHashesSixBytes : Prop :=
  ∀ (s : State) (b0 b1 b2 b3 b4 b5 : Byte), ∃ t,
    execAll (expandPseudo (.machash b0 b1 b2 b3 b4 b5)) s = .next t ∧
    t.idx = hashIndex [b0, b1, b2, b3, b4, b5] ∧ t.res = crcBytes [b0, b1, b2, b3, b4, b5] ∧
    t.refl = reflect32 t.res ∧ t.cnt = 6 ∧ t.crc = t.res ^^^ 0xFFFFFFFF ∧
    t.data = b0 ++ b1 ++ b4 ++ b5 ∧
    t.rsp = success ((hashIndex [b0, b1, b2, b3, b4, b5]).setWidth 32) ∧
    { t with crc := s.crc, cnt := s.cnt, res := s.res, refl := s.refl, idx := s.idx,
             data := s.data, rsp := s.rsp } = s

/-- R145: the bitmap of one index holds that index and no other; and after MAPCLR and any list of
MAPORI commands it holds exactly the indices named, whatever their order or repetition. -/
def Obligations.BitmapIsTheSetOfIndices : Prop :=
  (∀ i j : Index, indexPresent (onehot i).1 (onehot i).2 j = decide (j = i)) ∧
  ∀ (s : State) (ks : List Index), ∃ t, execAll (.mapclr :: ks.map Instr.mapori) s = .next t ∧
    (∀ j : Index, indexPresent t.hth t.htl j = true ↔ j ∈ ks) ∧
    { t with hth := s.hth, htl := s.htl, rsp := s.rsp } = s

/-- R160: the enumeration visits d outer and p inner, both ascending, so its n-th pair is n. -/
def Obligations.EnumerationAscends : Prop :=
  allPairs.length = 65536 ∧ (∀ n : Nat, n < 65536 → allPairs[n]? = some (BitVec.ofNat 16 n)) ∧
  ∀ d p : Byte, pairD (packPair d p) = d ∧ pairP (packPair d p) = p

/-- R167, partition: for every prefix the bucket lists together are a permutation of all 65536 pairs,
and each pair is in exactly the bucket CPROBE answers for it. -/
def Obligations.BucketsPartitionPairs : Prop :=
  ∀ pfx : Word,
    (concatenatedLists (enumeration pfx)).Perm allPairs ∧
    (bucketNumbers.map fun k => (bucketList pfx k).length).sum = 65536 ∧
    ∀ (n : Half) (k : Index), n ∈ bucketList pfx k ↔ pairBucket pfx n = k

/-- R167, uniformity: for every prefix every bucket holds exactly 1024 pairs; so while the map is
current CNTMEM[k] is 1024 and BASE(k) is 1024·k. -/
def Obligations.BucketsAreUniform : Prop :=
  (∀ (pfx : Word) (k : Index), (bucketList pfx k).length = 1024) ∧
  ∀ (s : State) (k : Index), MapCurrent s → s.status.cv = true →
    cntRead s k = 1024 ∧ bucketBase s k = 1024 * k.toNat

/-- R160 against R161: the pseudocode's two passes of single writes, from memories in canonical form,
end in the memories R161 defines. -/
def Obligations.CrunLoopsReachDefinition : Prop :=
  ∀ (pfx : Word) (cm : Memory 17) (lm : Memory 16),
    Memory.wf cntmemSize cm → Memory.wf listmemSize lm →
    crunByLoops (enumeration pfx) cm lm = (countMemory (enumeration pfx), listMemory (enumeration pfx))

/-- R68: however the enumeration is split into consecutive parts, the parts' lists concatenated per
bucket are the lists of the sequential enumeration; CNTMEM made of the merged lists' lengths and
LISTMEM made of the merged lists one after another are the memories CRUN leaves. -/
def Obligations.WorkersAreInvisible : Prop :=
  ∀ (s : State) (parts : List (List Half)), parts.flatten = allPairs →
    (∀ k : Index, mergedBucket (workerResults s.pfx parts) k = bucketList s.pfx k) ∧
    ∃ t, exec .crun s = .next t ∧
      t.cntmem = (bucketNumbers.map fun k =>
        (k.toNat, BitVec.ofNat 17 (mergedBucket (workerResults s.pfx parts) k).length)) ∧
      t.listmem = layOutFrom 0 (bucketNumbers.flatMap (mergedBucket (workerResults s.pfx parts)))

/-- R166's corner case: while the map is current, CPROBE of the pair CLIST answers at n names the bucket
k with BASE(k) ≤ n < BASE(k) + CNTMEM[k]. -/
def Obligations.ProbeAgreesWithMap : Prop :=
  ∀ (s : State) (n : Half) (k : Index), MapCurrent s → s.status.cv = true →
    (pairBucket s.pfx (listRead s n) = k ↔
      bucketBase s k ≤ n.toNat ∧ n.toNat < bucketBase s k + (cntRead s k).toNat)

/-! ## Rules of the whole machine -/

/-- 10_state sections 2 and 3 (the Writers lists of R21 to R29, R30 and R33): a command that a
register's rule does not name as a writer leaves it unchanged, whatever else it does. STATUS has one
writer more, the error path, which keeps CV: a command its rule does not name leaves STATUS unchanged
where it succeeds, and CV where it answers an error. -/
def Obligations.OnlyNamedWritersChangeRegisters : Prop :=
  (∀ (r : Reg) (i : Instr) (s t : State), r ≠ .status → names r i = false → exec i s = .next t →
    t.readReg r = s.readReg r) ∧
  ∀ (i : Instr) (s t : State) (r : Response), names .status i = false → exec i s = .next t →
    t.rsp = some r →
    (r.code = 0 → t.readReg .status = s.readReg .status) ∧ (r.code ≠ 0 → t.status.cv = s.status.cv)

/-- R38, R39: only CRUN writes CNTMEM and LISTMEM. Every entry of both reads as before after any other
command, except that SRST leaves their contents unspecified (R189). That stale entries read as before
after WR 8 too is the model's reading, where U4 allows any contents (log entry 11). -/
def Obligations.OnlyCrunWritesMemories : Prop :=
  ∀ (i : Instr) (s t : State), i ≠ .crun → i ≠ .srst → exec i s = .next t →
    (∀ k : Index, cntRead t k = cntRead s k) ∧ ∀ n : Half, listRead t n = listRead s n

/-- R59: RD, CCNT, CBASE, CLIST and CPROBE change nothing but the response when they succeed, repeating
one gives the same response, and VERIFY and CRUN repeated leave the state they left. -/
def Obligations.ReadsHaveNoSideEffects : Prop :=
  (∀ (i : Instr) (s t : State) (r : Response), readsOnly i = true → exec i s = .next t →
    t.rsp = some r → (r.code = 0 → { t with rsp := s.rsp } = s) ∧
      ∃ u, exec i t = .next u ∧ u.rsp = t.rsp) ∧
  ∀ s : State, (∃ t, execAll [.verify] s = .next t ∧ execAll [.verify, .verify] s = .next t) ∧
    ∃ t, execAll [.crun] s = .next t ∧ execAll [.crun, .crun] s = .next t

/-- R32, R238: once CV is 0, no list of commands without CRUN makes the map readable: CCNT, CBASE and
CLIST still answer NotReady after it. -/
def Obligations.MapUnreadableUntilCrun : Prop :=
  ∀ (is : List Instr) (s : State), s.status.cv = false → .crun ∉ is →
    ∃ t, execAll is s = .next t ∧ t.status.cv = false ∧
      ∀ (k : Index) (n : Half), exec (.ccnt k) t = .next (t.raise .notReady) ∧
        exec (.cbase k) t = .next (t.raise .notReady) ∧ exec (.clist n) t = .next (t.raise .notReady)

/-! ## Invariants every step keeps -/

/-- R32: the map CV vouches for is the map of the current PREFIX, after every step. -/
def Obligations.StepKeepsMapCurrent : Prop :=
  ∀ s t : State, MapCurrent s → step s = .next t → MapCurrent t

/-- Both memories stay in canonical form and within their sizes, after every step. The sizes are those
of R38 and R39; that indices rise strictly is the model's own form of a memory (log entry 9). -/
def Obligations.StepKeepsMemoriesCanonical : Prop :=
  ∀ s t : State, MemoriesCanonical s → step s = .next t → MemoriesCanonical t

/-- R30, R31, R201: ERR and ECODE stay consistent, after every step. -/
def Obligations.StepKeepsStatusLegal : Prop :=
  ∀ s t : State, StatusLegal s.status → step s = .next t → StatusLegal t.status

/-- R33, R151: VSTAT is all 0 or what VERIFY yields, after every step. -/
def Obligations.StepKeepsVstatLegal : Prop :=
  ∀ s t : State, VstatLegal s.vstat → step s = .next t → VstatLegal t.vstat

/-- R200, R201: no response with a reserved code, and no error with nonzero data, is ever offered or
delivered; and a step from a state with none never stops. That waiting is a step too, where U12 calls
the block stuck, is the model's reading (log entries 3 and 18), and so is that a take with nothing
offered is used up (log entry 5). -/
def Obligations.StepKeepsResponsesLegal : Prop :=
  ∀ s : State, ResponsesLegal s → ∃ t, step s = .next t ∧ ResponsesLegal t

/-- R43, R230: the state after reset has the values the spec gives, and meets every invariant above. That
its memories are in canonical form rests on the model's form of a memory (log entry 9) and on nothing
being listed at reset (log entry 1). -/
def Obligations.ResetMeetsInvariants : Prop :=
  State.reset.crc = 0xFFFFFFFF ∧ State.reset.cnt = 0 ∧ State.reset.res = 0 ∧ State.reset.refl = 0 ∧
  State.reset.idx = 0 ∧ State.reset.hth = 0 ∧ State.reset.htl = 0 ∧ State.reset.data = 0 ∧
  State.reset.pfx = 0 ∧ statusWord State.reset.status = 0 ∧ vstatWord State.reset.vstat = 0 ∧
  MapCurrent State.reset ∧ MemoriesCanonical State.reset ∧ StatusLegal State.reset.status ∧
  VstatLegal State.reset.vstat ∧ ResponsesLegal State.reset

/-! ## What may change STATUS -/

/-- R30, R31, R32, R230: in any step CV goes from 1 to 0 only by WR 8, SRST or the reset input, and from
0 to 1 only by CRUN; ERR goes from 1 to 0 only by CLRERR, SRST or the reset input, and from 0 to 1 only
in a step that answers an error. -/
def Obligations.FlagsChangeOnlyAsNamed : Prop :=
  ∀ s t : State, step s = .next t →
    (s.status.cv = true → t.status.cv = false →
      acceptsOneOf [.wr 8, .srst] s ∨ meetsReset s) ∧
    (s.status.cv = false → t.status.cv = true → acceptsOneOf [.crun] s) ∧
    (s.status.err = true → t.status.err = false →
      acceptsOneOf [.clrerr, .srst] s ∨ meetsReset s) ∧
    (s.status.err = false → t.status.err = true → ∃ e : Error, t.rsp = failure e)
end

