-- ==== Sys2Proof/Laws/Encoding.lean ====
section
/-! SUPPORT. The encoding's small lemmas: the fields of an assembled word, the opcode map's rows, and
what the decoder answers for a row's words. -/

namespace Sys2Proof

/-- No two rows of the opcode map have one opcode (R78). -/
theorem opcodeTable_ops_nodup : (opcodeTable.map OpcodeRow.op).Nodup := by decide

/-- A list whose keys differ finds a member by its key. -/
theorem find?_by_key {α : Type} {rows : List α} {key : α → Byte} (h : (rows.map key).Nodup) {row : α}
    (hmem : row ∈ rows) : rows.find? (fun r => key r == key row) = some row := by
  induction rows with
  | nil => simp at hmem
  | cons r rows ih =>
    rw [List.map_cons, List.nodup_cons] at h
    rcases List.mem_cons.mp hmem with rfl | hmem
    · simp
    · have hne : key r ≠ key row := fun e => h.1 (e ▸ List.mem_map_of_mem hmem)
      simp [hne, ih h.2 hmem]

/-- The decoder on a word with an assigned opcode (R79). -/
theorem decode_of_row {row : OpcodeRow} (hrow : row ∈ opcodeTable) {w : Word}
    (hop : opField w = row.op) :
    decode w =
      if reservedFieldZero row.format w then .ok (row.operands w) else .error .reservedField := by
  rw [decode, hop, find?_by_key opcodeTable_ops_nodup hrow]

/-- The decoder on a word whose opcode no row has (R80). -/
theorem decode_of_no_row {w : Word} (h : ∀ row ∈ opcodeTable, row.op ≠ opField w) :
    decode w = .error .reservedOpcode := by
  rw [decode, List.find?_eq_none.mpr fun row hrow => by simpa using h row hrow]

/-! Fields of assembled words, format by format. -/

@[simp] theorem opField_wordN (op : Byte) : opField (wordN op) = op := by
  revert op; decide

@[simp] theorem opField_wordB (op imm8 : Byte) : opField (wordB op imm8) = op := by
  ext i hi
  rw [opField, BitVec.getElem_extractLsb']
  change (op ++ 0#16 ++ imm8 : BitVec (8 + 16 + 8)).getLsbD (24 + i) = op[i]
  rw [BitVec.getLsbD_append, if_neg (by omega), BitVec.getLsbD_append, if_neg (by omega),
    show 24 + i - 8 - 16 = i by omega, BitVec.getLsbD_eq_getElem hi]

@[simp] theorem opField_wordK (op : Byte) (k : Index) : opField (wordK op k) = op := by
  ext i hi
  rw [opField, BitVec.getElem_extractLsb']
  change (op ++ 0#18 ++ k : BitVec (8 + 18 + 6)).getLsbD (24 + i) = op[i]
  rw [BitVec.getLsbD_append, if_neg (by omega), BitVec.getLsbD_append, if_neg (by omega),
    show 24 + i - 6 - 18 = i by omega, BitVec.getLsbD_eq_getElem hi]

@[simp] theorem opField_wordR (op : Byte) (rn : RegNum) : opField (wordR op rn) = op := by
  ext i hi
  rw [opField, BitVec.getElem_extractLsb']
  change (op ++ 0#20 ++ rn : BitVec (8 + 20 + 4)).getLsbD (24 + i) = op[i]
  rw [BitVec.getLsbD_append, if_neg (by omega), BitVec.getLsbD_append, if_neg (by omega),
    show 24 + i - 4 - 20 = i by omega, BitVec.getLsbD_eq_getElem hi]

@[simp] theorem opField_wordI (op : Byte) (imm16 : Half) : opField (wordI op imm16) = op := by
  ext i hi
  rw [opField, BitVec.getElem_extractLsb']
  change (op ++ 0#8 ++ imm16 : BitVec (8 + 8 + 16)).getLsbD (24 + i) = op[i]
  rw [BitVec.getLsbD_append, if_neg (by omega), BitVec.getLsbD_append, if_neg (by omega),
    show 24 + i - 16 - 8 = i by omega, BitVec.getLsbD_eq_getElem hi]

end Sys2Proof
end

