-- ==== Sys2Proof/Laws/Memory.lean ====
section
/-! SUPPORT. The laws of the internal memories: reads after writes, the canonical form every operation
keeps, and what CRUN's memories read as. -/

namespace Sys2Proof.Machine

/-! ## Single writes -/

/-- A write answers its value at its own index and changes no other. -/
theorem get?_set {w : Nat} (m : Memory w) (n k : Nat) (v : BitVec w)
    (h : m.Pairwise fun a b => a.1 < b.1) :
    Memory.get? (Memory.set m n v) k = if n = k then some v else Memory.get? m k := by
  induction m with
  | nil => simp [Memory.set, Memory.get?]
  | cons c m ih =>
    obtain ⟨a, u⟩ := c
    rw [List.pairwise_cons] at h
    simp only [Memory.set]
    split
    · simp [Memory.get?]
    · split
      · next _ hna => subst hna; by_cases hk : n = k <;> simp [Memory.get?, hk]
      · next hlt hne =>
        simp only [Memory.get?, ih h.2]
        by_cases hak : a = k
        · simp [hak, show ¬ n = k by omega]
        · simp [hak]

/-- A written index is the new one or one listed before. -/
theorem mem_set {w : Nat} {m : Memory w} {n : Nat} {v : BitVec w} {c : Nat × BitVec w}
    (h : c ∈ Memory.set m n v) : c = (n, v) ∨ c ∈ m := by
  induction m with
  | nil => simpa [Memory.set] using h
  | cons e m ih =>
    obtain ⟨a, u⟩ := e
    simp only [Memory.set] at h
    split at h
    · simpa using h
    · split at h
      · rcases List.mem_cons.mp h with h | h
        · exact .inl h
        · exact .inr (List.mem_cons_of_mem _ h)
      · rcases List.mem_cons.mp h with h | h
        · exact .inr (h ▸ List.mem_cons_self)
        · exact (ih h).imp id (List.mem_cons_of_mem _)

/-- A write within range keeps the canonical form. -/
theorem wf_set {w : Nat} {size : Nat} {m : Memory w} {n : Nat} {v : BitVec w}
    (h : Memory.wf size m) (hn : n < size) : Memory.wf size (Memory.set m n v) := by
  refine ⟨?_, fun c hc => ?_⟩
  · obtain ⟨hp, -⟩ := h
    clear hn
    induction m with
    | nil => simp [Memory.set]
    | cons e m ih =>
      obtain ⟨a, u⟩ := e
      rw [List.pairwise_cons] at hp
      simp only [Memory.set]
      split
      · next hlt =>
        rw [List.pairwise_cons, List.pairwise_cons]
        refine ⟨fun b hb => ?_, hp⟩
        rcases List.mem_cons.mp hb with rfl | hb
        · exact hlt
        · exact Nat.lt_trans hlt (hp.1 b hb)
      · split
        · next _ hna => subst hna; exact List.pairwise_cons.mpr hp
        · next hlt hne =>
          refine List.pairwise_cons.mpr ⟨fun b hb => ?_, ih hp.2⟩
          rcases mem_set hb with rfl | hb
          · show a < n; omega
          · exact hp.1 b hb
  · rcases mem_set hc with rfl | hc
    · exact hn
    · exact h.2 c hc

/-- CntWrite keeps CNTMEM in canonical form. -/
theorem wf_cntWrite {m : Memory 17} (k : Index) (v : BitVec 17) (h : Memory.wf cntmemSize m) :
    Memory.wf cntmemSize (cntWrite m k v) :=
  wf_set h k.isLt

/-- ListWrite keeps LISTMEM in canonical form. -/
theorem wf_listWrite {m : Memory 16} (n v : Half) (h : Memory.wf listmemSize m) :
    Memory.wf listmemSize (listWrite m n v) :=
  wf_set h n.isLt

/-! ## Entries laid out in a row -/

/-- The entry at an index of a row laid out from `n`. -/
theorem get?_layOutFrom (n k : Nat) (vs : List Half) :
    Memory.get? (layOutFrom n vs) k = if n ≤ k then vs[k - n]? else none := by
  induction vs generalizing n with
  | nil => simp [layOutFrom, Memory.get?]
  | cons v vs ih =>
    simp only [layOutFrom, Memory.get?, ih]
    by_cases h : n = k
    · subst h; simp
    · by_cases hlt : n ≤ k
      · obtain ⟨j, rfl⟩ : ∃ j, k = n + 1 + j := ⟨k - (n + 1), by omega⟩
        simp [h, show n ≤ n + 1 + j by omega, show n + 1 + j - n = j + 1 by omega]
      · simp [h, hlt, show ¬ n + 1 ≤ k by omega]

/-- The indices of a row laid out from `n` run from `n` to below its end. -/
theorem mem_layOutFrom {n : Nat} {vs : List Half} {c : Nat × Half} (h : c ∈ layOutFrom n vs) :
    n ≤ c.1 ∧ c.1 < n + vs.length := by
  induction vs generalizing n with
  | nil => simp [layOutFrom] at h
  | cons v vs ih =>
    rcases List.mem_cons.mp h with rfl | h
    · exact ⟨Nat.le_refl n, by simp⟩
    · have := ih h; simp only [List.length_cons]; omega

/-- A row that fits is in canonical form. -/
theorem wf_layOutFrom {size n : Nat} {vs : List Half} (h : n + vs.length ≤ size) :
    Memory.wf size (layOutFrom n vs) := by
  refine ⟨?_, fun c hc => by have := mem_layOutFrom hc; omega⟩
  clear h
  induction vs generalizing n with
  | nil => simp [layOutFrom]
  | cons v vs ih =>
    exact List.pairwise_cons.mpr ⟨fun c hc => by have := mem_layOutFrom hc; simp only; omega, ih⟩

/-! ## The memories CRUN builds -/

/-- The list of a bucket is the pairs that hash to it. -/
theorem bucketOf_enumeration (pfx : Word) (k : Index) :
    bucketOf (enumeration pfx) k = allPairs.filter fun n => pairBucket pfx n == k := by
  simp [bucketOf, enumeration, List.filter_map, Function.comp_def]

/-- The bucket numbers are 0..63, each once. -/
theorem bucketNumbers_nodup : bucketNumbers.Nodup := by decide

/-- Every bucket number is listed. -/
theorem mem_bucketNumbers (k : Index) : k ∈ bucketNumbers := by
  revert k; decide

/-- The lists of all buckets together are as long as the enumeration. -/
theorem length_concatenatedLists (pairs : List (Half × Index)) :
    (concatenatedLists pairs).length = pairs.length := by
  have count (ks : List Index) (hnd : ks.Nodup) :
      (ks.flatMap fun k => bucketOf pairs k).length = (pairs.filter fun e => e.2 ∈ ks).length := by
    induction ks with
    | nil => simp
    | cons k ks ih =>
      rw [List.nodup_cons] at hnd
      rw [List.flatMap_cons, List.length_append, ih hnd.2]
      clear ih
      induction pairs with
      | nil => rfl
      | cons e pairs ih =>
        simp only [bucketOf, List.length_map] at ih ⊢
        rcases Decidable.em (e.2 = k) with h | h
        · have hk : e.2 ∉ ks := h ▸ hnd.1
          simp only [List.filter_cons, h, beq_self_eq_true, if_true, List.length_cons, List.mem_cons,
            true_or, decide_true] at ih ⊢
          simp only [show k ∉ ks from hnd.1, decide_false] at ih ⊢
          simp only [Bool.false_eq_true, if_false] at ih ⊢
          omega
        · by_cases hk : e.2 ∈ ks <;> simp [h, hk] at ih ⊢ <;> omega
  rw [concatenatedLists, count _ bucketNumbers_nodup]
  simp [mem_bucketNumbers]

/-- CNTMEM after CRUN is in canonical form. -/
theorem wf_countMemory (pairs : List (Half × Index)) : Memory.wf cntmemSize (countMemory pairs) := by
  constructor
  · rw [countMemory, List.pairwise_map]
    exact (by decide : bucketNumbers.Pairwise fun a b => a.toNat < b.toNat)
  · intro c hc
    obtain ⟨k, -, rfl⟩ := List.mem_map.mp hc
    exact k.isLt

/-- LISTMEM after CRUN is in canonical form, for any enumeration of at most 65536 pairs. -/
theorem wf_listMemory {pairs : List (Half × Index)} (h : pairs.length ≤ listmemSize) :
    Memory.wf listmemSize (listMemory pairs) :=
  wf_layOutFrom (by rw [length_concatenatedLists]; omega)

/-- There are 65536 pairs. -/
theorem length_enumeration (pfx : Word) : (enumeration pfx).length = listmemSize := by
  have h : allPairs.length = 256 * 256 := by
    unfold allPairs
    simp only [List.length_flatMap, List.length_map, List.length_range, List.map_const',
      List.sum_replicate, smul_eq_mul]
  simp [enumeration, h, listmemSize]

/-- CNTMEM as CRUN writes it, entry by entry. -/
theorem get?_countMemory (pairs : List (Half × Index)) (k : Index) :
    Memory.get? (countMemory pairs) k.toNat = some (BitVec.ofNat 17 (bucketOf pairs k).length) := by
  have find (ks : List Index) (h : k ∈ ks) :
      Memory.get? (ks.map fun j => (j.toNat, BitVec.ofNat 17 (bucketOf pairs j).length)) k.toNat =
        some (BitVec.ofNat 17 (bucketOf pairs k).length) := by
    induction ks with
    | nil => simp at h
    | cons j ks ih =>
      simp only [List.map_cons, Memory.get?]
      by_cases hj : j = k
      · simp [hj]
      · have hne : j.toNat ≠ k.toNat := fun e => hj (BitVec.eq_of_toNat_eq e)
        simp only [hne, if_false]
        exact ih ((List.mem_cons.mp h).resolve_left (Ne.symm hj))
  exact find _ (mem_bucketNumbers k)

/-- LISTMEM as CRUN writes it, entry by entry. -/
theorem get?_listMemory (pairs : List (Half × Index)) (n : Nat) :
    Memory.get? (listMemory pairs) n = (concatenatedLists pairs)[n]? := by
  simp [listMemory, get?_layOutFrom]

/-- Both memories of the state after reset are in canonical form. -/
theorem reset_memories_wf :
    Memory.wf cntmemSize State.reset.cntmem ∧ Memory.wf listmemSize State.reset.listmem := by
  decide

end Sys2Proof.Machine
end

