-- ==== Sys2Proof/Laws/PerInstr.lean ====
section
/-! SUPPORT. Per command: its word selects a row of the opcode map, `(word & mask) == match` (R78). -/

namespace Sys2Proof.Laws.SelectsRow

/-- The word of `i` selects the row with its mnemonic in the opcode map (R78). -/
def Statement (i : Instr) : Prop :=
  ∃ row ∈ opcodeTable, selectsRow (encode i) row = true

/-- Masking a word that ends in an operand field leaves its fixed part. -/
theorem mask_append {m n : Nat} (a b : BitVec m) (x : BitVec n) :
    (a ++ x) &&& (b ++ (0 : BitVec n)) = (a &&& b) ++ (0 : BitVec n) := by
  rw [BitVec.and_append, BitVec.ofNat_eq_ofNat, BitVec.and_zero]

/-- A word of format B masked is its opcode alone. -/
theorem masked_wordB (op : Byte) (imm8 : Byte) :
    wordB op imm8 &&& formatMask .b = op ++ (0 : BitVec 24) := by
  have h := mask_append (op ++ (0 : BitVec 16)) (0xFFFFFF : BitVec 24) imm8
  have hop : (((op ++ (0 : BitVec 16)) &&& (0xFFFFFF : BitVec 24)) ++ (0 : BitVec 8) : Word) =
      op ++ (0 : BitVec 24) := by
    clear h
    revert op
    decide
  exact Eq.trans h hop

/-- A word of format K masked is its opcode alone. -/
theorem masked_wordK (op : Byte) (k : Index) :
    wordK op k &&& formatMask .k = op ++ (0 : BitVec 24) := by
  have h := mask_append (op ++ (0 : BitVec 18)) (0x3FFFFFF : BitVec 26) k
  have hop : (((op ++ (0 : BitVec 18)) &&& (0x3FFFFFF : BitVec 26)) ++ (0 : BitVec 6) : Word) =
      op ++ (0 : BitVec 24) := by
    clear h
    revert op
    decide
  exact Eq.trans h hop

/-- A word of format R masked is its opcode alone. -/
theorem masked_wordR (op : Byte) (rn : RegNum) :
    wordR op rn &&& formatMask .r = op ++ (0 : BitVec 24) := by
  have h := mask_append (op ++ (0 : BitVec 20)) (0xFFFFFFF : BitVec 28) rn
  have hop : (((op ++ (0 : BitVec 20)) &&& (0xFFFFFFF : BitVec 28)) ++ (0 : BitVec 4) : Word) =
      op ++ (0 : BitVec 24) := by
    clear h
    revert op
    decide
  exact Eq.trans h hop

/-- A word of format I masked is its opcode alone. -/
theorem masked_wordI (op : Byte) (imm16 : Half) :
    wordI op imm16 &&& formatMask .i = op ++ (0 : BitVec 24) := by
  have h := mask_append (op ++ (0 : BitVec 8)) (0xFFFF : BitVec 16) imm16
  have hop : (((op ++ (0 : BitVec 8)) &&& (0xFFFF : BitVec 16)) ++ (0 : BitVec 16) : Word) =
      op ++ (0 : BitVec 24) := by
    clear h
    revert op
    decide
  exact Eq.trans h hop

theorem nop : Statement .nop := by
  unfold Statement; decide

theorem reflect : Statement .reflect := by
  unfold Statement; decide

theorem init : Statement .init := by
  unfold Statement; decide

theorem byte (imm8 : Byte) : Statement (.byte imm8) :=
  ⟨opcodeTable[3], List.getElem_mem (by decide), beq_iff_eq.mpr (masked_wordB 0x21 imm8)⟩

theorem feedh : Statement .feedh := by
  unfold Statement; decide

theorem feedw : Statement .feedw := by
  unfold Statement; decide

theorem final : Statement .final := by
  unfold Statement; decide

theorem hash : Statement .hash := by
  unfold Statement; decide

theorem hashmac : Statement .hashmac := by
  unfold Statement; decide

theorem mapclr : Statement .mapclr := by
  unfold Statement; decide

theorem mapset : Statement .mapset := by
  unfold Statement; decide

theorem mapor : Statement .mapor := by
  unfold Statement; decide

theorem mapori (k : Index) : Statement (.mapori k) :=
  ⟨opcodeTable[12], List.getElem_mem (by decide), beq_iff_eq.mpr (masked_wordK 0x43 k)⟩

theorem verify : Statement .verify := by
  unfold Statement; decide

theorem crun : Statement .crun := by
  unfold Statement; decide

theorem ccnt (k : Index) : Statement (.ccnt k) :=
  ⟨opcodeTable[15], List.getElem_mem (by decide), beq_iff_eq.mpr (masked_wordK 0x61 k)⟩

theorem cbase (k : Index) : Statement (.cbase k) :=
  ⟨opcodeTable[16], List.getElem_mem (by decide), beq_iff_eq.mpr (masked_wordK 0x62 k)⟩

theorem clist (imm16 : Half) : Statement (.clist imm16) :=
  ⟨opcodeTable[17], List.getElem_mem (by decide), beq_iff_eq.mpr (masked_wordI 0x63 imm16)⟩

theorem cprobe (imm16 : Half) : Statement (.cprobe imm16) :=
  ⟨opcodeTable[18], List.getElem_mem (by decide), beq_iff_eq.mpr (masked_wordI 0x64 imm16)⟩

theorem ldlo (imm16 : Half) : Statement (.ldlo imm16) :=
  ⟨opcodeTable[19], List.getElem_mem (by decide), beq_iff_eq.mpr (masked_wordI 0x70 imm16)⟩

theorem ldhi (imm16 : Half) : Statement (.ldhi imm16) :=
  ⟨opcodeTable[20], List.getElem_mem (by decide), beq_iff_eq.mpr (masked_wordI 0x71 imm16)⟩

theorem rd (rn : RegNum) : Statement (.rd rn) :=
  ⟨opcodeTable[21], List.getElem_mem (by decide), beq_iff_eq.mpr (masked_wordR 0x72 rn)⟩

theorem wr (rn : RegNum) : Statement (.wr rn) :=
  ⟨opcodeTable[22], List.getElem_mem (by decide), beq_iff_eq.mpr (masked_wordR 0x73 rn)⟩

theorem clrerr : Statement .clrerr := by
  unfold Statement; decide

theorem srst : Statement .srst := by
  unfold Statement; decide

end Sys2Proof.Laws.SelectsRow
end

