-- ==== Sys2Proof/Laws/State.lean ====
section
/-! SUPPORT. One lemma per field for each named update of State, so that no proof unfolds one. -/

namespace Sys2Proof.Machine

/-! respond(0, data): writes the response. -/

@[simp] theorem respond_crc (s : State) (d : Word) : (s.respond d).crc = s.crc := rfl
@[simp] theorem respond_cnt (s : State) (d : Word) : (s.respond d).cnt = s.cnt := rfl
@[simp] theorem respond_res (s : State) (d : Word) : (s.respond d).res = s.res := rfl
@[simp] theorem respond_refl (s : State) (d : Word) : (s.respond d).refl = s.refl := rfl
@[simp] theorem respond_idx (s : State) (d : Word) : (s.respond d).idx = s.idx := rfl
@[simp] theorem respond_hth (s : State) (d : Word) : (s.respond d).hth = s.hth := rfl
@[simp] theorem respond_htl (s : State) (d : Word) : (s.respond d).htl = s.htl := rfl
@[simp] theorem respond_data (s : State) (d : Word) : (s.respond d).data = s.data := rfl
@[simp] theorem respond_pfx (s : State) (d : Word) : (s.respond d).pfx = s.pfx := rfl
@[simp] theorem respond_status (s : State) (d : Word) : (s.respond d).status = s.status := rfl
@[simp] theorem respond_vstat (s : State) (d : Word) : (s.respond d).vstat = s.vstat := rfl
@[simp] theorem respond_cntmem (s : State) (d : Word) : (s.respond d).cntmem = s.cntmem := rfl
@[simp] theorem respond_listmem (s : State) (d : Word) : (s.respond d).listmem = s.listmem := rfl
@[simp] theorem respond_rsp (s : State) (d : Word) :
    (s.respond d).rsp = some { code := 0, data := d } := rfl
@[simp] theorem respond_taken (s : State) (d : Word) : (s.respond d).taken = s.taken := rfl
@[simp] theorem respond_host (s : State) (d : Word) : (s.respond d).host = s.host := rfl

/-! the error path (R204): writes STATUS and the response. -/

@[simp] theorem raise_crc (s : State) (e : Error) : (s.raise e).crc = s.crc := rfl
@[simp] theorem raise_cnt (s : State) (e : Error) : (s.raise e).cnt = s.cnt := rfl
@[simp] theorem raise_res (s : State) (e : Error) : (s.raise e).res = s.res := rfl
@[simp] theorem raise_refl (s : State) (e : Error) : (s.raise e).refl = s.refl := rfl
@[simp] theorem raise_idx (s : State) (e : Error) : (s.raise e).idx = s.idx := rfl
@[simp] theorem raise_hth (s : State) (e : Error) : (s.raise e).hth = s.hth := rfl
@[simp] theorem raise_htl (s : State) (e : Error) : (s.raise e).htl = s.htl := rfl
@[simp] theorem raise_data (s : State) (e : Error) : (s.raise e).data = s.data := rfl
@[simp] theorem raise_pfx (s : State) (e : Error) : (s.raise e).pfx = s.pfx := rfl
@[simp] theorem raise_status (s : State) (e : Error) :
    (s.raise e).status = recordError e s.status := rfl
@[simp] theorem raise_vstat (s : State) (e : Error) : (s.raise e).vstat = s.vstat := rfl
@[simp] theorem raise_cntmem (s : State) (e : Error) : (s.raise e).cntmem = s.cntmem := rfl
@[simp] theorem raise_listmem (s : State) (e : Error) : (s.raise e).listmem = s.listmem := rfl
@[simp] theorem raise_rsp (s : State) (e : Error) :
    (s.raise e).rsp = some { code := errorCode e, data := 0 } := rfl
@[simp] theorem raise_taken (s : State) (e : Error) : (s.raise e).taken = s.taken := rfl
@[simp] theorem raise_host (s : State) (e : Error) : (s.raise e).host = s.host := rfl

/-! the recovery (R185): writes STATUS. -/

@[simp] theorem clearErrors_crc (s : State) : (s.clearErrors).crc = s.crc := rfl
@[simp] theorem clearErrors_cnt (s : State) : (s.clearErrors).cnt = s.cnt := rfl
@[simp] theorem clearErrors_res (s : State) : (s.clearErrors).res = s.res := rfl
@[simp] theorem clearErrors_refl (s : State) : (s.clearErrors).refl = s.refl := rfl
@[simp] theorem clearErrors_idx (s : State) : (s.clearErrors).idx = s.idx := rfl
@[simp] theorem clearErrors_hth (s : State) : (s.clearErrors).hth = s.hth := rfl
@[simp] theorem clearErrors_htl (s : State) : (s.clearErrors).htl = s.htl := rfl
@[simp] theorem clearErrors_data (s : State) : (s.clearErrors).data = s.data := rfl
@[simp] theorem clearErrors_pfx (s : State) : (s.clearErrors).pfx = s.pfx := rfl
@[simp] theorem clearErrors_status (s : State) :
    (s.clearErrors).status = clearErrorRecord s.status := rfl
@[simp] theorem clearErrors_vstat (s : State) : (s.clearErrors).vstat = s.vstat := rfl
@[simp] theorem clearErrors_cntmem (s : State) : (s.clearErrors).cntmem = s.cntmem := rfl
@[simp] theorem clearErrors_listmem (s : State) : (s.clearErrors).listmem = s.listmem := rfl
@[simp] theorem clearErrors_rsp (s : State) : (s.clearErrors).rsp = s.rsp := rfl
@[simp] theorem clearErrors_taken (s : State) : (s.clearErrors).taken = s.taken := rfl
@[simp] theorem clearErrors_host (s : State) : (s.clearErrors).host = s.host := rfl

/-! feeding one byte (R113): writes CRC and CNT. -/

@[simp] theorem feedByte_crc (s : State) (b : Byte) : (s.feedByte b).crc = crcStep s.crc b := rfl
@[simp] theorem feedByte_cnt (s : State) (b : Byte) : (s.feedByte b).cnt = satInc s.cnt := rfl
@[simp] theorem feedByte_res (s : State) (b : Byte) : (s.feedByte b).res = s.res := rfl
@[simp] theorem feedByte_refl (s : State) (b : Byte) : (s.feedByte b).refl = s.refl := rfl
@[simp] theorem feedByte_idx (s : State) (b : Byte) : (s.feedByte b).idx = s.idx := rfl
@[simp] theorem feedByte_hth (s : State) (b : Byte) : (s.feedByte b).hth = s.hth := rfl
@[simp] theorem feedByte_htl (s : State) (b : Byte) : (s.feedByte b).htl = s.htl := rfl
@[simp] theorem feedByte_data (s : State) (b : Byte) : (s.feedByte b).data = s.data := rfl
@[simp] theorem feedByte_pfx (s : State) (b : Byte) : (s.feedByte b).pfx = s.pfx := rfl
@[simp] theorem feedByte_status (s : State) (b : Byte) : (s.feedByte b).status = s.status := rfl
@[simp] theorem feedByte_vstat (s : State) (b : Byte) : (s.feedByte b).vstat = s.vstat := rfl
@[simp] theorem feedByte_cntmem (s : State) (b : Byte) : (s.feedByte b).cntmem = s.cntmem := rfl
@[simp] theorem feedByte_listmem (s : State) (b : Byte) : (s.feedByte b).listmem = s.listmem := rfl
@[simp] theorem feedByte_rsp (s : State) (b : Byte) : (s.feedByte b).rsp = s.rsp := rfl
@[simp] theorem feedByte_taken (s : State) (b : Byte) : (s.feedByte b).taken = s.taken := rfl
@[simp] theorem feedByte_host (s : State) (b : Byte) : (s.feedByte b).host = s.host := rfl

/-! the hash datapath (R131): writes RES, REFL and IDX. -/

@[simp] theorem extractHash_crc (s : State) : (s.extractHash).crc = s.crc := rfl
@[simp] theorem extractHash_cnt (s : State) : (s.extractHash).cnt = s.cnt := rfl
@[simp] theorem extractHash_res (s : State) : (s.extractHash).res = s.crc ^^^ 0xFFFFFFFF := rfl
@[simp] theorem extractHash_refl (s : State) :
    (s.extractHash).refl = reflect32 (s.crc ^^^ 0xFFFFFFFF) := rfl
@[simp] theorem extractHash_idx (s : State) :
    (s.extractHash).idx = topSix (reflect32 (s.crc ^^^ 0xFFFFFFFF)) := rfl
@[simp] theorem extractHash_hth (s : State) : (s.extractHash).hth = s.hth := rfl
@[simp] theorem extractHash_htl (s : State) : (s.extractHash).htl = s.htl := rfl
@[simp] theorem extractHash_data (s : State) : (s.extractHash).data = s.data := rfl
@[simp] theorem extractHash_pfx (s : State) : (s.extractHash).pfx = s.pfx := rfl
@[simp] theorem extractHash_status (s : State) : (s.extractHash).status = s.status := rfl
@[simp] theorem extractHash_vstat (s : State) : (s.extractHash).vstat = s.vstat := rfl
@[simp] theorem extractHash_cntmem (s : State) : (s.extractHash).cntmem = s.cntmem := rfl
@[simp] theorem extractHash_listmem (s : State) : (s.extractHash).listmem = s.listmem := rfl
@[simp] theorem extractHash_rsp (s : State) : (s.extractHash).rsp = s.rsp := rfl
@[simp] theorem extractHash_taken (s : State) : (s.extractHash).taken = s.taken := rfl
@[simp] theorem extractHash_host (s : State) : (s.extractHash).host = s.host := rfl

/-! ORing an index into the bitmap (R143): writes HTH and HTL. -/

@[simp] theorem orIndex_crc (s : State) (i : Index) : (s.orIndex i).crc = s.crc := rfl
@[simp] theorem orIndex_cnt (s : State) (i : Index) : (s.orIndex i).cnt = s.cnt := rfl
@[simp] theorem orIndex_res (s : State) (i : Index) : (s.orIndex i).res = s.res := rfl
@[simp] theorem orIndex_refl (s : State) (i : Index) : (s.orIndex i).refl = s.refl := rfl
@[simp] theorem orIndex_idx (s : State) (i : Index) : (s.orIndex i).idx = s.idx := rfl
@[simp] theorem orIndex_hth (s : State) (i : Index) :
    (s.orIndex i).hth = s.hth ||| (onehot i).1 := rfl
@[simp] theorem orIndex_htl (s : State) (i : Index) :
    (s.orIndex i).htl = s.htl ||| (onehot i).2 := rfl
@[simp] theorem orIndex_data (s : State) (i : Index) : (s.orIndex i).data = s.data := rfl
@[simp] theorem orIndex_pfx (s : State) (i : Index) : (s.orIndex i).pfx = s.pfx := rfl
@[simp] theorem orIndex_status (s : State) (i : Index) : (s.orIndex i).status = s.status := rfl
@[simp] theorem orIndex_vstat (s : State) (i : Index) : (s.orIndex i).vstat = s.vstat := rfl
@[simp] theorem orIndex_cntmem (s : State) (i : Index) : (s.orIndex i).cntmem = s.cntmem := rfl
@[simp] theorem orIndex_listmem (s : State) (i : Index) : (s.orIndex i).listmem = s.listmem := rfl
@[simp] theorem orIndex_rsp (s : State) (i : Index) : (s.orIndex i).rsp = s.rsp := rfl
@[simp] theorem orIndex_taken (s : State) (i : Index) : (s.orIndex i).taken = s.taken := rfl
@[simp] theorem orIndex_host (s : State) (i : Index) : (s.orIndex i).host = s.host := rfl

/-! SRST (R189): all but the port. -/

@[simp] theorem softReset_crc (s : State) : (s.softReset).crc = State.reset.crc := rfl
@[simp] theorem softReset_cnt (s : State) : (s.softReset).cnt = State.reset.cnt := rfl
@[simp] theorem softReset_res (s : State) : (s.softReset).res = State.reset.res := rfl
@[simp] theorem softReset_refl (s : State) : (s.softReset).refl = State.reset.refl := rfl
@[simp] theorem softReset_idx (s : State) : (s.softReset).idx = State.reset.idx := rfl
@[simp] theorem softReset_hth (s : State) : (s.softReset).hth = State.reset.hth := rfl
@[simp] theorem softReset_htl (s : State) : (s.softReset).htl = State.reset.htl := rfl
@[simp] theorem softReset_data (s : State) : (s.softReset).data = State.reset.data := rfl
@[simp] theorem softReset_pfx (s : State) : (s.softReset).pfx = State.reset.pfx := rfl
@[simp] theorem softReset_status (s : State) : (s.softReset).status = State.reset.status := rfl
@[simp] theorem softReset_vstat (s : State) : (s.softReset).vstat = State.reset.vstat := rfl
@[simp] theorem softReset_cntmem (s : State) : (s.softReset).cntmem = State.reset.cntmem := rfl
@[simp] theorem softReset_listmem (s : State) : (s.softReset).listmem = State.reset.listmem := rfl
@[simp] theorem softReset_rsp (s : State) : (s.softReset).rsp = s.rsp := rfl
@[simp] theorem softReset_taken (s : State) : (s.softReset).taken = s.taken := rfl
@[simp] theorem softReset_host (s : State) : (s.softReset).host = s.host := rfl

/-! the reset input (R230): all but what the host has and will do. -/

@[simp] theorem hardReset_crc (s : State) : (s.hardReset).crc = State.reset.crc := rfl
@[simp] theorem hardReset_cnt (s : State) : (s.hardReset).cnt = State.reset.cnt := rfl
@[simp] theorem hardReset_res (s : State) : (s.hardReset).res = State.reset.res := rfl
@[simp] theorem hardReset_refl (s : State) : (s.hardReset).refl = State.reset.refl := rfl
@[simp] theorem hardReset_idx (s : State) : (s.hardReset).idx = State.reset.idx := rfl
@[simp] theorem hardReset_hth (s : State) : (s.hardReset).hth = State.reset.hth := rfl
@[simp] theorem hardReset_htl (s : State) : (s.hardReset).htl = State.reset.htl := rfl
@[simp] theorem hardReset_data (s : State) : (s.hardReset).data = State.reset.data := rfl
@[simp] theorem hardReset_pfx (s : State) : (s.hardReset).pfx = State.reset.pfx := rfl
@[simp] theorem hardReset_status (s : State) : (s.hardReset).status = State.reset.status := rfl
@[simp] theorem hardReset_vstat (s : State) : (s.hardReset).vstat = State.reset.vstat := rfl
@[simp] theorem hardReset_cntmem (s : State) : (s.hardReset).cntmem = State.reset.cntmem := rfl
@[simp] theorem hardReset_listmem (s : State) : (s.hardReset).listmem = State.reset.listmem := rfl
@[simp] theorem hardReset_rsp (s : State) : (s.hardReset).rsp = State.reset.rsp := rfl
@[simp] theorem hardReset_taken (s : State) : (s.hardReset).taken = s.taken := rfl
@[simp] theorem hardReset_host (s : State) : (s.hardReset).host = s.host := rfl

/-! The updates of STATUS (R31, R32, R185). -/

@[simp] theorem recordError_err (e : Error) (f : Status) : (recordError e f).err = true := rfl
@[simp] theorem recordError_ecode (e : Error) (f : Status) :
    (recordError e f).ecode = if f.err then f.ecode else errorCode e := rfl
@[simp] theorem recordError_cv (e : Error) (f : Status) : (recordError e f).cv = f.cv := rfl
@[simp] theorem clearErrorRecord_err (f : Status) : (clearErrorRecord f).err = false := rfl
@[simp] theorem clearErrorRecord_ecode (f : Status) : (clearErrorRecord f).ecode = 0 := rfl
@[simp] theorem clearErrorRecord_cv (f : Status) : (clearErrorRecord f).cv = f.cv := rfl
@[simp] theorem setMapValid_err (f : Status) : (setMapValid f).err = f.err := rfl
@[simp] theorem setMapValid_ecode (f : Status) : (setMapValid f).ecode = f.ecode := rfl
@[simp] theorem setMapValid_cv (f : Status) : (setMapValid f).cv = true := rfl
@[simp] theorem clearMapValid_err (f : Status) : (clearMapValid f).err = f.err := rfl
@[simp] theorem clearMapValid_ecode (f : Status) : (clearMapValid f).ecode = f.ecode := rfl
@[simp] theorem clearMapValid_cv (f : Status) : (clearMapValid f).cv = false := rfl

/-- Delivering a response changes the port alone: what it leaves in each case. -/
theorem deliver_some {s : State} {r : Response} (h : s.rsp = some r) :
    s.deliver = { s with rsp := none, taken := s.taken ++ [r] } := by
  simp [State.deliver, h]

/-- With no response offered, delivering changes nothing. -/
theorem deliver_none {s : State} (h : s.rsp = none) : s.deliver = s := by
  simp [State.deliver, h]

/-- After a delivery the block is ready. -/
@[simp] theorem deliver_rsp (s : State) : s.deliver.rsp = none := by
  cases h : s.rsp <;> simp [State.deliver, h]

/-- Feeding bytes (R114, R115) advances CRC by all of them and CNT by one increment each, and changes
nothing else. -/
theorem feedBytes_eq (s : State) (bytes : List Byte) :
    s.feedBytes bytes = { s with crc := crcFeed s.crc bytes, cnt := satInc^[bytes.length] s.cnt } := by
  induction bytes generalizing s with
  | nil => rfl
  | cons b bs ih =>
    show (s.feedByte b).feedBytes bs = _
    rw [ih]
    simp [crcFeed, State.feedByte]

end Sys2Proof.Machine
end

