-- ==== Sys2Proof/Laws/Units.lean ====
section
/-! SUPPORT. One or two lemmas for each shared function of the units, which callers cite instead of
unfolding it. -/

namespace Sys2Proof.Machine

/-! ## Errors -/

/-- An error's code is one of 1, 2, 3. -/
theorem errorCode_toNat (e : Error) : 1 ≤ (errorCode e).toNat ∧ (errorCode e).toNat ≤ 3 := by
  cases e <;> decide

/-- Codes tell errors apart. -/
theorem errorCode_inj {e f : Error} (h : errorCode e = errorCode f) : e = f := by
  revert h; cases e <;> cases f <;> decide

/-- No error has the code of success. -/
@[simp] theorem errorCode_ne_zero (e : Error) : errorCode e ≠ 0#4 := by
  cases e <;> decide

/-! ## Reflection -/

/-- The loop has set bit `i` once it has passed it. -/
theorem getLsbD_reflectBits (x : Word) (n i : Nat) (hn : n ≤ 32) :
    (reflectBits x n).getLsbD i = (decide (i < n) && x.getLsbD (31 - i)) := by
  induction n with
  | zero => simp [reflectBits]
  | succ n ih =>
    have hone : (if x.getLsbD (31 - n) then 1#32 <<< n else 0).getLsbD i =
        (decide (i = n) && x.getLsbD (31 - n)) := by
      cases hx : x.getLsbD (31 - n)
      · simp
      · simp only [if_true, BitVec.getLsbD_shiftLeft, BitVec.getLsbD_one, Bool.and_true]
        rw [Bool.eq_iff_iff]
        simp only [Bool.and_eq_true, decide_eq_true_eq, Bool.not_eq_true', decide_eq_false_iff_not]
        omega
    rw [reflectBits, BitVec.getLsbD_or, ih (by omega), hone]
    by_cases h : i = n
    · subst h; simp
    · by_cases hlt : i < n
      · simp [h, hlt, show i < n + 1 by omega]
      · simp [h, hlt, show ¬ i < n + 1 by omega]

/-- Bit `i` of a reflected word (R100). -/
theorem getLsbD_reflect32 (x : Word) (i : Nat) :
    (reflect32 x).getLsbD i = (decide (i < 32) && x.getLsbD (31 - i)) :=
  getLsbD_reflectBits x 32 i (by decide)

/-! ## CRC -/

@[simp] theorem crcFeed_nil (c : Word) : crcFeed c [] = c := rfl

@[simp] theorem crcFeed_cons (c : Word) (b : Byte) (bs : List Byte) :
    crcFeed c (b :: bs) = crcFeed (crcStep c b) bs := rfl

/-- Feeding a longer sequence is feeding its parts in turn. -/
theorem crcFeed_append (c : Word) (xs ys : List Byte) :
    crcFeed c (xs ++ ys) = crcFeed (crcFeed c xs) ys := by
  simp [crcFeed, List.foldl_append]

/-- One round is linear over GF(2). -/
theorem crcRound_xor (a b : Word) : crcRound (a ^^^ b) = crcRound a ^^^ crcRound b := by
  simp only [crcRound, BitVec.getLsbD_xor]
  cases ha : a.getLsbD 0 <;> cases hb : b.getLsbD 0 <;>
    simp only [Bool.xor_false, Bool.xor_true, Bool.not_true, Bool.not_false, if_true, if_false,
      Bool.false_eq_true, BitVec.ushiftRight_xor_distrib]
  · ac_rfl
  · ac_rfl
  · rw [show a >>> 1 ^^^ crcPoly ^^^ (b >>> 1 ^^^ crcPoly) =
      a >>> 1 ^^^ b >>> 1 ^^^ (crcPoly ^^^ crcPoly) by ac_rfl, BitVec.xor_self, BitVec.xor_zero]

/-- So are any number of rounds. -/
theorem crcRounds_xor (n : Nat) (a b : Word) :
    crcRounds n (a ^^^ b) = crcRounds n a ^^^ crcRounds n b := by
  induction n generalizing a b with
  | zero => rfl
  | succ n ih => simp only [crcRounds, crcRound_xor, ih]

/-- The saturating increment as a number (R117). -/
theorem satInc_toNat (c : Word) : (satInc c).toNat = min (c.toNat + 1) 0xFFFFFFFF := by
  unfold satInc
  split
  · next h => subst h; rfl
  · next h =>
    have hlt : c.toNat < 0xFFFFFFFF :=
      Nat.lt_of_le_of_ne (Nat.le_of_lt_succ c.isLt) fun e => h (BitVec.eq_of_toNat_eq e)
    rw [BitVec.toNat_add, Nat.min_eq_left (by omega)]
    exact Nat.mod_eq_of_lt (by simp; omega)

/-- Repeated saturating increments as a number. -/
theorem satInc_iterate_toNat (c : Word) (n : Nat) :
    (satInc^[n] c).toNat = min (c.toNat + n) 0xFFFFFFFF := by
  induction n generalizing c with
  | zero => have := c.isLt; simp; omega
  | succ n ih => rw [Function.iterate_succ_apply, ih, satInc_toNat]; omega

/-! ## The register map -/

/-- The reserved numbers are 11..15 (R34). -/
theorem regOfNum_eq_none_iff (rn : RegNum) : regOfNum rn = none ↔ 11 ≤ rn.toNat := by
  revert rn; decide

/-- The read-only registers are RES, REFL, IDX, STATUS and VSTAT (R34). -/
theorem writeReg_eq_none_iff (s : State) (r : Reg) (v : Word) :
    s.writeReg r v = none ↔
      r = .res ∨ r = .refl ∨ r = .idx ∨ r = .status ∨ r = .vstat := by
  cases r <;> simp [State.writeReg]

/-- A write of a register keeps the port, both memories, VSTAT and the error record. -/
theorem writeReg_some {s t : State} {r : Reg} {v : Word} (h : s.writeReg r v = some t) :
    t.rsp = s.rsp ∧ t.taken = s.taken ∧ t.host = s.host ∧ t.cntmem = s.cntmem ∧
    t.listmem = s.listmem ∧ t.vstat = s.vstat ∧ t.status.err = s.status.err ∧
    t.status.ecode = s.status.ecode := by
  cases r <;> simp [State.writeReg] at h <;> subst h <;> simp [clearMapValid]

/-! ## The mapper -/

/-- Index 0..31 is a bit of HTL (R140). -/
theorem onehot_low {i : Index} (h : i.toNat < 32) : onehot i = (0, 1#32 <<< i.toNat) := by
  revert i; decide

/-- Index 32..63 is a bit of HTH (R140). -/
theorem onehot_high {i : Index} (h : 32 ≤ i.toNat) : onehot i = (1#32 <<< (i.toNat - 32), 0) := by
  revert i; decide

end Sys2Proof.Machine
end

