-- ==== Sys2Proof/Laws/Step.lean ====
section
/-! SUPPORT. What a command, an accepted word and a step can do, said once. Proofs about every command
or every step start from these and not from the definitions. -/

namespace Sys2Proof.Machine

/-- What a successful command does to STATUS: nothing, except for CLRERR, SRST, CRUN and WR 8. -/
def StatusAfter (i : Instr) (f g : Status) : Prop :=
  g = f ∨ (i = .clrerr ∧ g = clearErrorRecord f) ∨ (i = .srst ∧ g = State.reset.status) ∨
  (i = .crun ∧ g = setMapValid f) ∨ (i = .wr 8 ∧ g = clearMapValid f)

/-- Only number 8 names PREFIX (R34). -/
theorem regOfNum_pfx_iff (rn : RegNum) : regOfNum rn = some .pfx ↔ rn = 8 := by
  revert rn; decide

/-- A command either succeeds, leaving the port's lists alone, or takes the error path on the state it
started from. -/
theorem exec_cases (i : Instr) (s : State) :
    (∃ (t : State) (d : Word), exec i s = .next (t.respond d) ∧ t.taken = s.taken ∧
      t.host = s.host ∧ StatusAfter i s.status t.status) ∨
    ∃ e : Error, exec i s = .next (s.raise e) := by
  cases i with
  | hashmac =>
    simp only [exec, execHashmac]
    split
    · exact .inl ⟨_, _, rfl, rfl, rfl, .inl rfl⟩
    · exact .inr ⟨_, rfl⟩
  | ccnt k =>
    simp only [exec, execCcnt]
    split
    · exact .inl ⟨_, _, rfl, rfl, rfl, .inl rfl⟩
    · exact .inr ⟨_, rfl⟩
  | cbase k =>
    simp only [exec, execCbase]
    split
    · exact .inl ⟨_, _, rfl, rfl, rfl, .inl rfl⟩
    · exact .inr ⟨_, rfl⟩
  | clist n =>
    simp only [exec, execClist]
    split
    · exact .inl ⟨_, _, rfl, rfl, rfl, .inl rfl⟩
    · exact .inr ⟨_, rfl⟩
  | rd rn =>
    simp only [exec, execRd]
    split
    · exact .inl ⟨_, _, rfl, rfl, rfl, .inl rfl⟩
    · exact .inr ⟨_, rfl⟩
  | wr rn =>
    simp only [exec, execWr]
    split
    · next t h =>
      obtain ⟨r, hr, hw⟩ := Option.bind_eq_some_iff.mp h
      obtain ⟨-, ht, hh, -⟩ := writeReg_some hw
      refine .inl ⟨_, _, rfl, ht, hh, ?_⟩
      by_cases hp : r = .pfx
      · subst hp
        cases hw
        exact .inr (.inr (.inr (.inr ⟨by rw [(regOfNum_pfx_iff rn).mp hr], rfl⟩)))
      · cases r <;> simp [State.writeReg] at hw hp <;> subst hw <;> exact .inl rfl
    · exact .inr ⟨_, rfl⟩
  | clrerr => exact .inl ⟨_, _, rfl, rfl, rfl, .inr (.inl ⟨rfl, rfl⟩)⟩
  | srst => exact .inl ⟨_, _, rfl, rfl, rfl, .inr (.inr (.inl ⟨rfl, rfl⟩))⟩
  | crun => exact .inl ⟨_, _, rfl, rfl, rfl, .inr (.inr (.inr (.inl ⟨rfl, rfl⟩)))⟩
  | nop | reflect | init | byte | feedh | feedw | final | hash | mapclr | mapset | mapor | mapori
  | verify | cprobe | ldlo | ldhi => exact .inl ⟨_, _, rfl, rfl, rfl, .inl rfl⟩

/-- What a command leaves in both memories, PREFIX, CV and VSTAT. -/
inductive MapEffect (i : Instr) (s t : State) : Prop where
  /-- CRUN writes both memories for the PREFIX it keeps. -/
  | built (h : i = .crun) (hc : t.cntmem = countMemory (enumeration s.pfx))
      (hl : t.listmem = listMemory (enumeration s.pfx)) (hp : t.pfx = s.pfx)
      (hv : t.vstat = s.vstat)
  /-- SRST leaves nothing listed. -/
  | cleared (h : i = .srst) (hc : t.cntmem = []) (hl : t.listmem = [])
      (hcv : t.status.cv = false) (hv : t.vstat = State.reset.vstat)
  /-- Any other command keeps both memories; CV stays with PREFIX, or is cleared. -/
  | kept (h₁ : i ≠ .crun) (h₂ : i ≠ .srst) (hc : t.cntmem = s.cntmem) (hl : t.listmem = s.listmem)
      (hp : (t.pfx = s.pfx ∧ t.status.cv = s.status.cv) ∨ t.status.cv = false)
      (hv : t.vstat = s.vstat ∨ t.vstat = verifyTable romRead)

/-- The effect of any command on the collision map and VSTAT. -/
theorem exec_mapEffect {i : Instr} {s t : State} (h : exec i s = .next t) : MapEffect i s t := by
  cases i with
  | crun => cases h; exact .built rfl rfl rfl rfl rfl
  | srst => cases h; exact .cleared rfl rfl rfl rfl rfl
  | verify => cases h; exact .kept (by simp) (by simp) rfl rfl (.inl ⟨rfl, rfl⟩) (.inr rfl)
  | hashmac =>
    simp only [exec, execHashmac] at h
    split at h <;> cases h <;>
      exact .kept (by simp) (by simp) rfl rfl (.inl ⟨rfl, rfl⟩) (.inl rfl)
  | ccnt k =>
    simp only [exec, execCcnt] at h
    split at h <;> cases h <;>
      exact .kept (by simp) (by simp) rfl rfl (.inl ⟨rfl, rfl⟩) (.inl rfl)
  | cbase k =>
    simp only [exec, execCbase] at h
    split at h <;> cases h <;>
      exact .kept (by simp) (by simp) rfl rfl (.inl ⟨rfl, rfl⟩) (.inl rfl)
  | clist n =>
    simp only [exec, execClist] at h
    split at h <;> cases h <;>
      exact .kept (by simp) (by simp) rfl rfl (.inl ⟨rfl, rfl⟩) (.inl rfl)
  | rd rn =>
    simp only [exec, execRd] at h
    split at h <;> cases h <;>
      exact .kept (by simp) (by simp) rfl rfl (.inl ⟨rfl, rfl⟩) (.inl rfl)
  | wr rn =>
    simp only [exec, execWr] at h
    split at h
    · next u hu =>
      obtain ⟨r, -, hw⟩ := Option.bind_eq_some_iff.mp hu
      obtain ⟨-, -, -, hc, hl, hv, -⟩ := writeReg_some hw
      cases h
      refine .kept (by simp) (by simp) hc hl ?_ (.inl hv)
      cases r <;> simp [State.writeReg] at hw <;> subst hw <;> simp
    · cases h
      exact .kept (by simp) (by simp) rfl rfl (.inl ⟨rfl, rfl⟩) (.inl rfl)
  | nop | reflect | init | byte | feedh | feedw | final | hash | mapclr | mapset | mapor | mapori
  | cprobe | ldlo | ldhi | clrerr =>
    cases h; exact .kept (by simp) (by simp) rfl rfl (.inl ⟨rfl, rfl⟩) (.inl rfl)

/-- An accepted word runs its command or takes the error path, and answers a next state. -/
theorem runWord_cases (w : Word) (s : State) :
    ∃ t, runWord w s = .next t ∧
      ((∃ i, decode w = .ok i ∧ exec i s = .next t) ∨ t = s.raise .illegalCommand) := by
  unfold runWord
  split
  · next i hi =>
    rcases exec_cases i s with ⟨t, d, h, -⟩ | ⟨e, h⟩
    · exact ⟨_, h, .inl ⟨i, hi, h⟩⟩
    · exact ⟨_, h, .inl ⟨i, hi, h⟩⟩
  · exact ⟨_, rfl, .inr rfl⟩

/-- What a step that goes on does: it runs an offered word, or changes the port alone, or resets; and
which of the host's actions made it do so. -/
theorem step_cases {s t : State} (h : step s = .next t) :
    (∃ w rest, s.rsp = none ∧ s.host = .issue w :: rest ∧ runWord w { s with host := rest } = .next t) ∨
    t = { s with rsp := t.rsp, taken := t.taken, host := t.host } ∨
    (((∃ rest, s.host = .reset :: rest) ∨ ∃ w rest, s.rsp = none ∧ s.host = .resetDuring w :: rest) ∧
      t = { State.reset with rsp := t.rsp, taken := t.taken, host := t.host }) := by
  unfold step portStep at h
  split at h
  · cases h; exact .inr (.inl rfl)
  · next w rest hh =>
    split at h
    · next hr => exact .inl ⟨w, rest, Option.isNone_iff_eq_none.mp hr, hh, h⟩
    · cases h; exact .inr (.inl rfl)
  · unfold takeResponse at h
    split at h
    · next r hr =>
      split at h
      · rw [deliver_some hr] at h; cases h; exact .inr (.inl rfl)
      · cases h
    · next hr => rw [deliver_none hr] at h; cases h; exact .inr (.inl rfl)
  · next rest hh => cases h; exact .inr (.inr ⟨.inl ⟨rest, hh⟩, rfl⟩)
  · next w rest hh =>
    split at h
    · next hr =>
      cases h; exact .inr (.inr ⟨.inr ⟨w, rest, Option.isNone_iff_eq_none.mp hr, hh⟩, rfl⟩)
    · cases h; exact .inr (.inl rfl)

/-- The induction of every step invariant that does not speak of the port: it holds at reset, the error
path keeps it, and every command keeps it. -/
theorem step_keeps (P : State → Prop)
    (hport : ∀ (s : State) (r : Option Response) (ts : List Response) (hs : List HostAction),
      P s → P { s with rsp := r, taken := ts, host := hs })
    (hreset : P State.reset) (hraise : ∀ (s : State) (e : Error), P s → P (s.raise e))
    (hexec : ∀ (i : Instr) (s t : State), P s → exec i s = .next t → P t)
    {s t : State} (hs : P s) (h : step s = .next t) : P t := by
  rcases step_cases h with ⟨w, rest, -, -, hw⟩ | h | ⟨-, h⟩
  · have hp := hport s s.rsp s.taken rest hs
    obtain ⟨u, hu, hcase⟩ := runWord_cases w { s with host := rest }
    cases hw.symm.trans hu
    rcases hcase with ⟨i, -, hx⟩ | hx
    · exact hexec i _ _ hp hx
    · exact hx ▸ hraise _ _ hp
  · rw [h]; exact hport s _ _ _ hs
  · rw [h]; exact hport _ _ _ _ hreset

end Sys2Proof.Machine
end

