-- ==== Sys2Proof/Tests/Slice0.lean ====
section
/-! SUPPORT. Tests on fixed values taken from the spec, and for every obligation with hypotheses a
witness that meets them. -/

namespace Sys2Proof.Tests

open Sys2Proof.Machine
open Sys2Proof.Safety

/-- Whether a command answers a next state that passes a check. -/
def runs (i : Instr) (s : State) (check : State → Bool) : Bool :=
  match exec i s with
  | .next t => check t
  | .fault _ => false
  | .refused _ => false

/-- Whether one step answers a next state that passes a check. -/
def steps (s : State) (check : State → Bool) : Bool :=
  match step s with
  | .next t => check t
  | .fault _ => false
  | .refused _ => false

/-- The response a state offers, as (code, data). -/
def answers (t : State) (code data : Nat) : Bool :=
  t.rsp == some { code := BitVec.ofNat 4 code, data := BitVec.ofNat 32 data }

/-- The reset state with DATA loaded. -/
def withData (d : Word) : State := { State.reset with data := d }

/-! ## Decoding: every command's word written out from R72 to R78 -/

theorem test_decode_nop : decode 0x00000000 = .ok .nop := by decide
theorem test_decode_rfl : decode 0x10000000 = .ok .reflect := by decide
theorem test_decode_init : decode 0x20000000 = .ok .init := by decide
theorem test_decode_byte : decode 0x210000A5 = .ok (.byte 0xA5) := by decide
theorem test_decode_feedh : decode 0x22000000 = .ok .feedh := by decide
theorem test_decode_feedw : decode 0x23000000 = .ok .feedw := by decide
theorem test_decode_final : decode 0x24000000 = .ok .final := by decide
theorem test_decode_hash : decode 0x30000000 = .ok .hash := by decide
theorem test_decode_hashmac : decode 0x31000000 = .ok .hashmac := by decide
theorem test_decode_mapclr : decode 0x40000000 = .ok .mapclr := by decide
theorem test_decode_mapset : decode 0x41000000 = .ok .mapset := by decide
theorem test_decode_mapor : decode 0x42000000 = .ok .mapor := by decide
theorem test_decode_mapori : decode 0x4300003F = .ok (.mapori 63) := by decide
theorem test_decode_verify : decode 0x50000000 = .ok .verify := by decide
theorem test_decode_crun : decode 0x60000000 = .ok .crun := by decide
theorem test_decode_ccnt : decode 0x61000005 = .ok (.ccnt 5) := by decide
theorem test_decode_cbase : decode 0x6200003F = .ok (.cbase 63) := by decide
theorem test_decode_clist : decode 0x6300FFFF = .ok (.clist 0xFFFF) := by decide
theorem test_decode_cprobe : decode 0x64000087 = .ok (.cprobe 0x0087) := by decide
theorem test_decode_ldlo : decode 0x7000419C = .ok (.ldlo 0x419C) := by decide
theorem test_decode_ldhi : decode 0x71001F52 = .ok (.ldhi 0x1F52) := by decide
theorem test_decode_rd : decode 0x7200000A = .ok (.rd 10) := by decide
theorem test_decode_wr : decode 0x73000008 = .ok (.wr 8) := by decide
theorem test_decode_clrerr : decode 0x74000000 = .ok .clrerr := by decide
theorem test_decode_srst : decode 0x7F000000 = .ok .srst := by decide

/-- The illegal words of 95_test_vectors section 2.8. -/
theorem test_decode_refuses :
    ([0x00000001, 0x01000000, 0x0F000000, 0x11000000, 0x80000000, 0xFFFFFFFF, 0x21000100, 0x43000040,
      0x72000010, 0x63010000, 0x7F000001].all fun w => (decodeTableWord 32 w).isNone) = true := by
  decide

/-- The decoder names why it refuses (R79). -/
theorem test_decode_names_reason :
    decode 0x01000000 = .error .reservedOpcode ∧ decode 0x00000001 = .error .reservedField := by decide

/-- Every row's match word of R78 is executed by the first step after reset. -/
theorem test_step_runs_every_row :
    ([0x00000000, 0x10000000, 0x20000000, 0x21000000, 0x22000000, 0x23000000, 0x24000000, 0x30000000,
      0x31000000, 0x40000000, 0x41000000, 0x42000000, 0x43000000, 0x50000000, 0x60000000, 0x61000000,
      0x62000000, 0x63000000, 0x64000000, 0x70000000, 0x71000000, 0x72000000, 0x73000000, 0x74000000,
      0x7F000000].all fun w => steps (State.reset.withFetchWord 32 w) fun t => t.rsp.isSome) = true := by
  decide

/-! ## WellFormed: a term each check refuses -/

theorem test_wf_refuses_rd_reserved : Instr.wellFormed (.rd 11) = false := by decide
theorem test_wf_refuses_wr_readonly : Instr.wellFormed (.wr 2) = false := by decide
theorem test_wf_refuses_wr_reserved : Instr.wellFormed (.wr 15) = false := by decide
theorem test_wf_accepts : Instr.wellFormed (.rd 10) = true ∧ Instr.wellFormed (.wr 8) = true := by decide
theorem test_fits_refuses :
    fitsField 8 256 = false ∧ fitsField 6 64 = false ∧ fitsField 4 16 = false ∧
    fitsField 16 65536 = false ∧ fitsField 32 4294967296 = false := by decide

/-! ## The commands, from the examples and corner cases of their rules -/

-- R180's example
theorem test_nop : runs .nop State.reset (fun t => answers t 0 0) = true := by decide

-- R102's example; 95_test_vectors 2.1
theorem test_rfl : runs .reflect (withData 0x12345678)
    (fun t => t.refl == 0x1E6A2C48 && answers t 0 0x1E6A2C48) = true := by decide +kernel
theorem test_rfl_low_bit : runs .reflect (withData 1) (fun t => t.refl == 0x80000000) = true := by
  decide +kernel

-- R112's example
theorem test_init : runs .init { State.reset with crc := 0x12345678, cnt := 9 }
    (fun t => t.crc == 0xFFFFFFFF && t.cnt == 0 && answers t 0 0xFFFFFFFF) = true := by decide

-- R113's example and saturation corner (P8)
theorem test_byte : runs (.byte 0x1f) State.reset
    (fun t => t.crc == 0xA0F51D87 && t.cnt == 1 && answers t 0 0xA0F51D87) = true := by decide +kernel
theorem test_byte_saturates : runs (.byte 0x00) { State.reset with cnt := 0xFFFFFFFF }
    (fun t => t.crc == 0x2DFD1072 && t.cnt == 0xFFFFFFFF) = true := by decide +kernel

-- R114's example
theorem test_feedh : runs .feedh { State.reset with crc := 0xA9223CDF, cnt := 4, data := 0x1F52B6AF }
    (fun t => t.crc == 0xDD39BB32 && t.cnt == 6) = true := by decide +kernel

-- R115's example
theorem test_feedw : runs .feedw (withData 0x1F52419C)
    (fun t => t.crc == 0xA9223CDF && t.cnt == 4 && answers t 0 0xA9223CDF) = true := by decide +kernel

-- R116: the register of 95_test_vectors 2.3, and the empty sequence
theorem test_final : runs .final { State.reset with crc := 0xDD39BB32 }
    (fun t => t.res == 0x22C644CD && t.crc == 0xDD39BB32) = true := by decide
theorem test_final_empty : runs .final State.reset (fun t => t.res == 0) = true := by decide

-- R131: the check value row of 95_test_vectors 2.4
theorem test_hash : runs .hash { State.reset with crc := 0x340BC6D9, cnt := 9 }
    (fun t => t.res == 0xCBF43926 && t.refl == 0x649C2FD3 && t.idx == 25 && answers t 0 25) = true := by
  decide +kernel

-- R132's example and its length check
theorem test_hashmac : runs .hashmac { State.reset with crc := 0xDD39BB32, cnt := 6 }
    (fun t => t.refl == 0xB3226344 && t.idx == 44 && answers t 0 0x2C) = true := by decide +kernel
theorem test_hashmac_short : runs .hashmac { State.reset with cnt := 5 }
    (fun t => statusWord t.status == 0x11 && t.res == 0 && answers t 1 0) = true := by decide +kernel

-- R141's example
theorem test_mapclr : runs .mapclr { State.reset with hth := 0x1200, htl := 0x80 }
    (fun t => t.hth == 0 && t.htl == 0) = true := by decide

-- R142's corner cases
theorem test_mapset_high : runs .mapset { State.reset with idx := 44, htl := 0x80 }
    (fun t => t.hth == 0x00001000 && t.htl == 0) = true := by decide
theorem test_mapset_low : runs .mapset { State.reset with idx := 31 }
    (fun t => t.hth == 0 && t.htl == 0x80000000) = true := by decide

-- R143's example
theorem test_mapor : runs .mapor { State.reset with hth := 0x1000, idx := 7 }
    (fun t => t.hth == 0x1000 && t.htl == 0x80) = true := by decide

-- R144's example and corner case
theorem test_mapori : runs (.mapori 41) State.reset (fun t => t.hth == 0x200 && t.htl == 0) = true := by
  decide
theorem test_mapori_32 : runs (.mapori 0x20) State.reset (fun t => t.hth == 1 && t.htl == 0) = true := by
  decide

-- R151
theorem test_verify : runs .verify State.reset
    (fun t => vstatWord t.vstat == 0x007E91EC && answers t 0 0x007E91EC) = true := by decide +kernel

-- R160: flags and response, and the reset prefix's first pair of bucket 0 (95_test_vectors 2.7.2)
theorem test_crun : runs .crun State.reset
    (fun t => t.status.cv && answers t 0 0x00010000) = true := by decide +kernel
theorem test_crun_first_pair : runs .crun State.reset (fun t => listRead t 0 == 0x0007) = true := by
  decide +kernel

-- R163: a count where one is written, and NotReady after reset (95_test_vectors 2.7.4)
theorem test_ccnt : runs (.ccnt 5)
    { State.reset with cntmem := [(5, 1024)], status := { err := false, ecode := 0, cv := true } }
    (fun t => answers t 0 0x400) = true := by decide
theorem test_ccnt_not_ready : runs (.ccnt 0) State.reset
    (fun t => statusWord t.status == 0x31 && answers t 3 0) = true := by decide +kernel

-- R164: the sum over the buckets below
theorem test_cbase : runs (.cbase 2)
    { State.reset with
      cntmem := [(0, 1024), (1, 7), (2, 500)], status := { err := false, ecode := 0, cv := true } }
    (fun t => answers t 0 1031) = true := by decide
theorem test_cbase_not_ready : runs (.cbase 0) State.reset (fun t => answers t 3 0) = true := by decide

-- R165: the example's entry, and NotReady
theorem test_clist : runs (.clist 0x0400)
    { State.reset with listmem := [(0x400, 0x0007)], status := { err := false, ecode := 0, cv := true } }
    (fun t => answers t 0 0x0007) = true := by decide
theorem test_clist_not_ready : runs (.clist 0xFFFF) State.reset (fun t => answers t 3 0) = true := by
  decide

-- R166's example; 95_test_vectors 2.7.3
theorem test_cprobe : runs (.cprobe 0x5241) { State.reset with pfx := 0xE8524341 }
    (fun t => answers t 0 50) = true := by decide +kernel
theorem test_cprobe_reset : runs (.cprobe 0x0000) State.reset
    (fun t => answers t 0 49 && t.idx == 0) = true := by decide +kernel

-- R181, R182: 95_test_vectors 2.8
theorem test_ldlo : runs (.ldlo 0x0004) (withData 0xA9223CDF)
    (fun t => t.data == 0xA9220004 && answers t 0 0xA9220004) = true := by decide
theorem test_ldhi : runs (.ldhi 0xE852) (withData 0x00004341)
    (fun t => t.data == 0xE8524341) = true := by decide

-- R183
theorem test_rd_status : runs (.rd 9)
    { State.reset with status := { err := true, ecode := 1, cv := true } }
    (fun t => answers t 0 0x111) = true := by decide
theorem test_rd_reserved : runs (.rd 11) State.reset
    (fun t => statusWord t.status == 0x21 && answers t 2 0) = true := by decide +kernel

-- R184
theorem test_wr_prefix : runs (.wr 8)
    { withData 0xE8524341 with status := { err := false, ecode := 0, cv := true } }
    (fun t => t.pfx == 0xE8524341 && !t.status.cv && answers t 0 0xE8524341) = true := by decide
theorem test_wr_readonly : runs (.wr 2) (withData 5)
    (fun t => t.res == 0 && answers t 2 0) = true := by decide

-- R185's example
theorem test_clrerr : runs .clrerr { State.reset with status := { err := true, ecode := 1, cv := true } }
    (fun t => statusWord t.status == 0x100) = true := by decide +kernel

-- R189's example
theorem test_srst : runs .srst
    { withData 7 with crc := 0, status := { err := true, ecode := 3, cv := true } }
    (fun t => t.crc == 0xFFFFFFFF && t.data == 0 && statusWord t.status == 0) = true := by
  decide +kernel

-- R31: InvalidInput, then IllegalCommand: the first code stays (95_test_vectors 2.8)
theorem test_first_error_kept :
    statusWord (recordError .illegalCommand (recordError .invalidInput State.reset.status)) = 0x11 := by
  decide

/-! ## The functions, from the tables of 95_test_vectors -/

-- 2.2
theorem test_crc_step : crcStep 0xFFFFFFFF 0x80 = 0xC0459352 ∧ crcStep 0 0x80 = 0xEDB88320 ∧
    crcStep 1 0 = 0x77073096 := by decide +kernel

-- 1.1 and 2.4
theorem test_hash_index : hashIndex [0xa0, 0x0a, 0x98, 0x00, 0x00, 0x45] = 7 ∧ hashIndex [] = 0 ∧
    hashIndex [0x01, 0x00, 0x5e, 0x00, 0x00, 0x01] = 32 := by decide +kernel

-- R116: the published check value
theorem test_crc_check_value :
    crcBytes [0x31, 0x32, 0x33, 0x34, 0x35, 0x36, 0x37, 0x38, 0x39] = 0xCBF43926 := by decide +kernel

-- R39: d in the high byte
theorem test_pack_pair : packPair 0xFF 0x78 = 0xFF78 := by decide

/-! ## The assembler (R85, R86) -/

theorem test_assemble_register_name : assembleText "RD HTH ; read it".toList = some [.rd 5] := by
  decide +kernel
theorem test_assemble_refuses_unfit : assembleText "MAPORI 64".toList = none := by decide +kernel
theorem test_assemble_setpfx : assembleText "SETPFX 0xE8524341".toList =
    some [.ldhi 0xE852, .ldlo 0x4341, .wr 8] := by decide +kernel

/-! ## Witnesses: for every obligation with hypotheses, values that meet them -/

/-- A state whose collision map is the one CRUN builds for the reset prefix. -/
def mapped : State :=
  { State.reset with
    cntmem := countMemory (enumeration 0)
    listmem := listMemory (enumeration 0)
    status := { err := false, ecode := 0, cv := true } }

/-- The reset state with host actions waiting. -/
def hosted (actions : List HostAction) : State := { State.reset with host := actions }

/-- A state that offers a response, with host actions waiting. -/
def offering (code : BitVec 4) (actions : List HostAction) : State :=
  { State.reset with rsp := some { code := code, data := 0 }, host := actions }

theorem witness_EncodeDecodeAgree : decode 0x2100001F = .ok (.byte 0x1F) := by decide

theorem witness_TableRowSelectsCommand : ∃ row ∈ opcodeTable, selectsRow 0x61000005 row = true :=
  ⟨opcodeTable[15], List.getElem_mem (by decide), by decide⟩

theorem witness_ReservedOpcodesRaise :
    ∀ n ∈ [0x01, 0x0F, 0x11, 0x1F, 0x25, 0x2F, 0x32, 0x3F, 0x44, 0x4F, 0x51, 0x5F, 0x65, 0x6F, 0x75,
      0x7E, 0x80, 0xFF], reservedOpcode (BitVec.ofNat 8 n) := by decide

/-- One word per format whose reserved field is nonzero in its lowest or highest bit. -/
theorem witness_NonzeroReservedFieldsRaise :
    (opField 0x00000001 = 0x00 ∧ ((0x00000001 : Word).extractLsb' 0 24).toNat ≠ 0) ∧
    (opField 0x21000100 = 0x21 ∧ ((0x21000100 : Word).extractLsb' 8 16).toNat ≠ 0) ∧
    (opField 0x43000040 = 0x43 ∧ ((0x43000040 : Word).extractLsb' 6 18).toNat ≠ 0) ∧
    (opField 0x72000010 = 0x72 ∧ ((0x72000010 : Word).extractLsb' 4 20).toNat ≠ 0) ∧
    (opField 0x63800000 = 0x63 ∧ ((0x63800000 : Word).extractLsb' 16 8).toNat ≠ 0) := by decide

theorem witness_StepRunsDecodedCommand :
    (hosted [.issue 0x50000000, .take]).rsp = none ∧ decode 0x50000000 = .ok .verify ∧
    decode 0xFF000000 = .error .reservedOpcode := by decide

theorem witness_StepWithoutCommand :
    (hosted []).host = [] ∧ (offering 3 [.issue 0]).rsp = some { code := 3, data := 0 } ∧
    (offering 0 [.resetDuring 0]).rsp = some { code := 0, data := 0 } ∧ (3 : BitVec 4).toNat < 4 ∧
    (offering 4 [.take]).rsp = some { code := 4, data := 0 } ∧ 4 ≤ (4 : BitVec 4).toNat ∧
    (hosted [.take]).rsp = none := by decide

theorem witness_ResetAbandonsCommand :
    (hosted [.reset]).host = [.reset] ∧ (hosted [.resetDuring 0x60000000]).rsp = none ∧
    (hosted [.resetDuring 0x60000000]).host = [.resetDuring 0x60000000] := by decide

theorem witness_OneResponsePerWord :
    (hosted (script [0x20000000, 0xFF000000])).rsp = none ∧
    (hosted (script [0x20000000, 0xFF000000])).host = script [0x20000000, 0xFF000000] := by decide

/-- A command that raises each error, and one that succeeds. -/
theorem witness_ErrorsByCommand :
    runs .hashmac State.reset (fun t => answers t 1 0) = true ∧
    runs (.rd 15) State.reset (fun t => answers t 2 0) = true ∧
    runs (.wr 9) State.reset (fun t => answers t 2 0) = true ∧
    runs (.clist 0) State.reset (fun t => answers t 3 0) = true ∧
    runs .nop State.reset (fun t => answers t 0 0) = true := by decide

theorem witness_FailedCommandChangesOnlyErrorRecord :
    exec .hashmac State.reset = .next (State.reset.raise .invalidInput) ∧
    (State.reset.raise .invalidInput).rsp = some { code := 1, data := 0 } :=
  ⟨rfl, rfl⟩

/-- Both halves of the statement: ERR already 1, and ERR 0 before a success and before an error. -/
theorem witness_FirstErrorIsKept :
    ((State.reset.raise .notReady).status.err = true ∧
      exec (.rd 11) (State.reset.raise .notReady) =
        .next ((State.reset.raise .notReady).raise .illegalCommand)) ∧
    (State.reset.status.err = false ∧ exec .nop State.reset = .next (State.reset.respond 0) ∧
      exec (.rd 11) State.reset = .next (State.reset.raise .illegalCommand)) :=
  ⟨⟨rfl, rfl⟩, rfl, rfl, rfl⟩

theorem witness_RflReversesData : 0 < 32 ∧ 31 < 32 := by decide

theorem witness_HashCommandsExtractIndex :
    ({ State.reset with cnt := 6 } : State).cnt = 6 ∧ State.reset.cnt ≠ 6 ∧
    ({ State.reset with cnt := 0xFFFFFFFF } : State).cnt ≠ 6 := by decide

theorem witness_NopOnlyResponds : (1 : Byte) ≠ 0 ∧ (0xFF : Byte) ≠ 0 := by decide

/-- The pair 0x0087 is in bucket 0 for the source's prefix (R166's example), so its list is not empty. -/
theorem witness_CrunBuildsCollisionMap : 0 < (bucketList 0xE8524341 0).length := by
  have hall : (0x0087 : Half) ∈ allPairs := by
    unfold allPairs
    exact List.mem_flatMap.mpr ⟨0, by decide, List.mem_map.mpr ⟨0x87, by decide, by decide⟩⟩
  exact List.length_pos_of_mem
    (List.mem_filter.mpr ⟨hall, (by decide +kernel : (pairBucket 0xE8524341 0x0087 == 0) = true)⟩)

theorem witness_MapReadsAnswer : mapped.status.cv = true ∧ State.reset.status.cv = false := ⟨rfl, rfl⟩

theorem witness_RdAnswersRegister :
    11 ≤ (11 : RegNum).toNat ∧ 11 ≤ (15 : RegNum).toNat ∧
    ([State.reset.crc, 0, 0, 0, 0, 0, 0, 0, 0, 0, vstatWord State.reset.vstat] : List Word)[
      (0 : RegNum).toNat]? = some 0xFFFFFFFF ∧
    ([State.reset.crc, 0, 0, 0, 0, 0, 0, 0, 0, 0, vstatWord State.reset.vstat] : List Word)[
      (10 : RegNum).toNat]? = some 0 := by decide

theorem witness_WrWritesRegister :
    ∀ rn ∈ ([2, 3, 4, 9, 10, 11, 15] : List RegNum), rn.toNat ∉ [0, 1, 5, 6, 7, 8] := by decide

/-- INIT, then BYTE, LDLO, FEEDH, LDHI and FEEDW in one mix. -/
theorem witness_FedBytesGiveCrc :
    ∃ t u bytes, exec .init State.reset = .next t ∧ Fed t bytes u ∧ bytes.length = 7 :=
  ⟨_, _, _, rfl,
    .byte 0x1f rfl (.ldlo 0x5241 rfl (.feedh rfl (.ldhi 0x9cb6 rfl (.feedw rfl (.done _))))), rfl⟩

theorem witness_ReflectIsInvolution : 0 < 32 ∧ 31 < 32 := by decide

theorem witness_HashIndexIsReversedLowBits : 0 < 6 ∧ 5 < 6 := by decide

theorem witness_EnumerationAscends : 0 < 65536 ∧ 65535 < 65536 := by decide

theorem witness_BucketsAreUniform : MapCurrent mapped ∧ mapped.status.cv = true :=
  ⟨fun _ => ⟨rfl, rfl⟩, rfl⟩

/-- Empty memories, and memories with stale entries at both ends. -/
theorem witness_CrunLoopsReachDefinition :
    Memory.wf cntmemSize ([] : Memory 17) ∧ Memory.wf listmemSize ([] : Memory 16) ∧
    Memory.wf cntmemSize ([(0, 9), (63, 1)] : Memory 17) ∧
    Memory.wf listmemSize ([(0, 9), (65535, 1)] : Memory 16) := by decide

/-- One worker that does all, and a split into a first part and the rest. -/
theorem witness_WorkersAreInvisible :
    [allPairs].flatten = allPairs ∧ [allPairs.take 100, allPairs.drop 100].flatten = allPairs := by
  simp

theorem witness_ProbeAgreesWithMap : MapCurrent mapped ∧ mapped.status.cv = true :=
  witness_BucketsAreUniform

theorem witness_OnlyNamedWritersChangeRegisters :
    Reg.crc ≠ .status ∧ names .crc (.wr 1) = false ∧
    exec (.wr 1) State.reset = .next ({ State.reset with cnt := 0 }.respond 0) ∧
    names .status (.wr 1) = false ∧ ({ State.reset with cnt := 0 }.respond 0).rsp = success 0 ∧
    names .status (.ccnt 0) = false ∧ exec (.ccnt 0) State.reset = .next (State.reset.raise .notReady) ∧
    (State.reset.raise .notReady).rsp = some { code := 3, data := 0 } :=
  ⟨by decide, by decide, rfl, by decide, rfl, by decide, rfl, rfl⟩

theorem witness_OnlyCrunWritesMemories :
    Instr.wr 8 ≠ .crun ∧ Instr.wr 8 ≠ .srst ∧
    runs (.wr 8) mapped (fun t => !t.status.cv) = true :=
  ⟨by decide, by decide, rfl⟩

theorem witness_ReadsHaveNoSideEffects :
    readsOnly (.rd 0) = true ∧ exec (.rd 0) State.reset = .next (State.reset.respond 0xFFFFFFFF) ∧
    readsOnly (.ccnt 0) = true ∧ exec (.ccnt 0) State.reset = .next (State.reset.raise .notReady) :=
  ⟨rfl, rfl, rfl, rfl⟩

theorem witness_MapUnreadableUntilCrun :
    State.reset.status.cv = false ∧ Instr.crun ∉ [Instr.ldlo 1, .wr 8, .srst, .ccnt 0] := by decide

/-- For the invariants of a step: a step from a state that meets them, and answers a next state. -/
theorem witness_StepKeepsMapCurrent :
    MapCurrent (hosted [.issue 0]) ∧ steps (hosted [.issue 0]) (fun _ => true) = true ∧
    MapCurrent { mapped with host := [.take] } ∧
    steps { mapped with host := [.take] } (fun t => t.status.cv) = true :=
  ⟨(fun h => by cases h), by decide, fun _ => ⟨rfl, rfl⟩, rfl⟩

theorem witness_StepKeepsMemoriesCanonical :
    MemoriesCanonical (hosted [.issue 0x60000000]) ∧
    steps (hosted [.issue 0x60000000]) (fun t => t.status.cv) = true :=
  ⟨reset_memories_wf, by decide⟩

theorem witness_StepKeepsStatusLegal :
    StatusLegal (hosted [.issue 0xFF000000]).status ∧
    steps (hosted [.issue 0xFF000000]) (fun t => t.status.err) = true :=
  ⟨⟨fun _ => rfl, fun h => by cases h⟩, by decide⟩

theorem witness_StepKeepsVstatLegal :
    VstatLegal (hosted [.issue 0x50000000]).vstat ∧
    steps (hosted [.issue 0x50000000]) (fun t => t.vstat.vdone) = true :=
  ⟨.inl (by decide), by decide +kernel⟩

theorem witness_StepKeepsResponsesLegal : ResponsesLegal (offering 0 [.take]) :=
  ⟨fun r h => by cases h; exact .inl rfl, fun r h => by cases h⟩

/-- A step for each premise: CV cleared, CV set, ERR cleared by CLRERR and by reset, ERR set. -/
theorem witness_FlagsChangeOnlyAsNamed :
    (mapped.status.cv = true ∧
      steps { mapped with host := [.issue 0x73000008] } (fun t => !t.status.cv) = true) ∧
    steps (hosted [.issue 0x60000000]) (fun t => t.status.cv) = true ∧
    ((State.raise State.reset .notReady).status.err = true ∧
      steps { State.reset.raise .notReady with rsp := none, host := [.issue 0x74000000] }
        (fun t => !t.status.err) = true ∧
      steps { State.reset.raise .notReady with host := [.reset] } (fun t => !t.status.err) = true) ∧
    steps (hosted [.issue 0x72000010]) (fun t => t.status.err) = true :=
  ⟨⟨rfl, rfl⟩, by decide, ⟨rfl, by decide, by decide⟩, by decide⟩

end Sys2Proof.Tests
end

/-! The state's own rules: what a command and a step do to STATUS, VSTAT, the registers and the
collision map (10_state). -/

namespace Sys2Proof.Machine

open Sys2Proof.Safety

/-! ## STATUS after a command -/

/-- Every command completes. -/
theorem exec_completes (i : Instr) (s : State) : ∃ t, exec i s = .next t := by
  rcases exec_cases i s with ⟨t, d, h, -⟩ | ⟨e, h⟩
  · exact ⟨_, h⟩
  · exact ⟨_, h⟩

/-- A command answers success, with STATUS as its own rule leaves it, or takes the error path. -/
theorem exec_outcome {i : Instr} {s t : State} (h : exec i s = .next t) :
    (∃ d, t.rsp = success d ∧ StatusAfter i s.status t.status) ∨ ∃ e, t = s.raise e := by
  rcases exec_cases i s with ⟨u, d, hu, -, -, hstatus⟩ | ⟨e, he⟩
  · cases h.symm.trans hu
    exact .inl ⟨d, rfl, hstatus⟩
  · cases h.symm.trans he
    exact .inr ⟨e, rfl⟩

/-- A success keeps ERR and ECODE, except for CLRERR and SRST (R31). -/
theorem StatusAfter.keeps_error {i : Instr} {f g : Status} (h : StatusAfter i f g)
    (hclr : i ≠ .clrerr) (hsrst : i ≠ .srst) : g.err = f.err ∧ g.ecode = f.ecode := by
  rcases h with rfl | ⟨hi, -⟩ | ⟨hi, -⟩ | ⟨-, rfl⟩ | ⟨-, rfl⟩
  · exact ⟨rfl, rfl⟩
  · exact absurd hi hclr
  · exact absurd hi hsrst
  · exact ⟨rfl, rfl⟩
  · exact ⟨rfl, rfl⟩

/-- A success clears CV only in WR 8 and SRST (R32). -/
theorem StatusAfter.clears_cv {i : Instr} {f g : Status} (h : StatusAfter i f g)
    (hf : f.cv = true) (hg : g.cv = false) : i ∈ [.wr 8, .srst] := by
  rcases h with rfl | ⟨-, rfl⟩ | ⟨rfl, -⟩ | ⟨-, rfl⟩ | ⟨rfl, -⟩
  · simp [hf] at hg
  · simp [hf] at hg
  · simp
  · simp at hg
  · simp

/-- A success sets CV only in CRUN (R32). -/
theorem StatusAfter.sets_cv {i : Instr} {f g : Status} (h : StatusAfter i f g)
    (hf : f.cv = false) (hg : g.cv = true) : i = .crun := by
  rcases h with rfl | ⟨-, rfl⟩ | ⟨-, rfl⟩ | ⟨hi, -⟩ | ⟨-, rfl⟩
  · simp [hf] at hg
  · simp [hf] at hg
  · simp [State.reset] at hg
  · exact hi
  · simp at hg

/-- A success clears ERR only in CLRERR and SRST (R31). -/
theorem StatusAfter.clears_err {i : Instr} {f g : Status} (h : StatusAfter i f g)
    (hf : f.err = true) (hg : g.err = false) : i ∈ [.clrerr, .srst] := by
  by_contra hi
  simp only [List.mem_cons, List.not_mem_nil, or_false, not_or] at hi
  obtain ⟨hclr, hsrst⟩ := hi
  obtain ⟨hkeepErr, -⟩ := h.keeps_error hclr hsrst
  simp [hf, hg] at hkeepErr

/-- No success sets ERR (R31). -/
theorem StatusAfter.not_sets_err {i : Instr} {f g : Status} (h : StatusAfter i f g)
    (hf : f.err = false) : g.err = false := by
  rcases h with rfl | ⟨-, rfl⟩ | ⟨-, rfl⟩ | ⟨-, rfl⟩ | ⟨-, rfl⟩
  · exact hf
  · rfl
  · rfl
  · exact hf
  · exact hf

/-- A second error leaves STATUS as it is (R31). -/
theorem recordError_of_err (e : Error) {f : Status} (h : f.err = true) : recordError e f = f := by
  cases f
  simp_all [recordError]

/-- Settles O15: a success keeps the error record by `StatusAfter.keeps_error`, and the error path
writes it only while ERR is 0. -/
theorem firstErrorIsKept : Obligations.FirstErrorIsKept := by
  intro i s t h hclr hsrst
  refine ⟨fun herr => ?_, fun herr r hr => ?_, ?_, fun e => ⟨rfl, recordError_of_err e⟩⟩
  · rcases exec_outcome h with ⟨d, -, hstatus⟩ | ⟨e, rfl⟩
    · obtain ⟨hkeepErr, hkeepCode⟩ := hstatus.keeps_error hclr hsrst
      exact ⟨hkeepErr.trans herr, hkeepCode⟩
    · simp [recordError_of_err e herr, herr]
  · rcases exec_outcome h with ⟨d, hd, hstatus⟩ | ⟨e, rfl⟩
    · obtain ⟨hkeepErr, hkeepCode⟩ := hstatus.keeps_error hclr hsrst
      cases hd.symm.trans hr
      exact ⟨hkeepErr.trans herr, hkeepCode⟩
    · cases hr
      simp [herr]
  · rintro j (rfl | rfl)
    · exact ⟨_, rfl, rfl, rfl⟩
    · exact ⟨_, rfl, rfl, rfl⟩

/-! ## The invariants every step keeps -/

/-- The reset state satisfies the map invariant, CV being 0. -/
theorem mapCurrent_reset : MapCurrent State.reset := nofun

/-- Every command keeps the map invariant: CRUN builds the map of the PREFIX it keeps, and any other
command keeps memories and PREFIX, or leaves CV at 0. -/
theorem exec_mapCurrent {i : Instr} {s t : State} (hs : MapCurrent s) (h : exec i s = .next t) :
    MapCurrent t := by
  intro hcv
  cases exec_mapEffect h with
  | built _ hc hl hp => exact ⟨hp ▸ hc, hp ▸ hl⟩
  | cleared _ _ _ hcv' => simp [hcv] at hcv'
  | kept _ _ hc hl hp =>
    rcases hp with ⟨hp, hcv'⟩ | hcv'
    · rw [hc, hl, hp]
      exact hs (hcv' ▸ hcv)
    · simp [hcv] at hcv'

/-- Settles O54, by `exec_mapCurrent` and the step induction. -/
theorem stepKeepsMapCurrent : Obligations.StepKeepsMapCurrent := by
  intro s t hs h
  exact step_keeps MapCurrent (fun _ _ _ _ hs => hs) mapCurrent_reset (fun _ _ hs => hs)
    (fun _ _ _ => exec_mapCurrent) hs h

/-- The reset values of ERR and ECODE are consistent. -/
theorem statusLegal_reset : StatusLegal State.reset.status := ⟨fun _ => rfl, nofun⟩

/-- The error path keeps ERR and ECODE consistent. -/
theorem statusLegal_recordError (e : Error) {f : Status} (h : StatusLegal f) :
    StatusLegal (recordError e f) := by
  refine ⟨nofun, fun _ => ?_⟩
  cases herr : f.err with
  | false => exact ⟨e, by simp [herr]⟩
  | true => simpa [herr] using h.2 herr

/-- A success keeps ERR and ECODE consistent: it keeps both or clears both. -/
theorem StatusAfter.statusLegal {i : Instr} {f g : Status} (h : StatusAfter i f g)
    (hf : StatusLegal f) : StatusLegal g := by
  rcases h with rfl | ⟨-, rfl⟩ | ⟨-, rfl⟩ | ⟨-, rfl⟩ | ⟨-, rfl⟩
  · exact hf
  · exact ⟨fun _ => rfl, nofun⟩
  · exact statusLegal_reset
  · exact hf
  · exact hf

/-- Settles O56, by the two ways a command leaves STATUS and the step induction. -/
theorem stepKeepsStatusLegal : Obligations.StepKeepsStatusLegal := by
  intro s t hs h
  refine step_keeps (fun s => StatusLegal s.status) (fun _ _ _ _ hs => hs) statusLegal_reset
    (fun _ e => statusLegal_recordError e) (fun i s t hs hx => ?_) hs h
  rcases exec_outcome hx with ⟨d, -, hstatus⟩ | ⟨e, rfl⟩
  · exact hstatus.statusLegal hs
  · exact statusLegal_recordError e hs

/-- VERIFY finds all three vectors of VROM matching (R151). -/
theorem vstatWord_verifyTable_romRead : vstatWord (verifyTable romRead) = 0x007E91EC := by
  decide +kernel

/-- VSTAT reads 0 after reset. -/
theorem vstatLegal_reset : VstatLegal State.reset.vstat := .inl rfl

/-- Every command keeps VSTAT, clears it (SRST) or writes VERIFY's result. -/
theorem exec_vstatLegal {i : Instr} {s t : State} (hs : VstatLegal s.vstat)
    (h : exec i s = .next t) : VstatLegal t.vstat := by
  cases exec_mapEffect h with
  | built _ _ _ _ hv => exact hv ▸ hs
  | cleared _ _ _ _ hv => exact hv ▸ vstatLegal_reset
  | kept _ _ _ _ _ hv =>
    rcases hv with hv | hv
    · exact hv ▸ hs
    · exact hv ▸ .inr vstatWord_verifyTable_romRead

/-- Settles O57, by `exec_vstatLegal` and the step induction. -/
theorem stepKeepsVstatLegal : Obligations.StepKeepsVstatLegal := by
  intro s t hs h
  exact step_keeps (fun s => VstatLegal s.vstat) (fun _ _ _ _ hs => hs) vstatLegal_reset
    (fun _ _ hs => hs) (fun _ _ _ => exec_vstatLegal) hs h

/-- Settles O59, from the reset cases of the invariants. -/
theorem resetMeetsInvariants : Obligations.ResetMeetsInvariants :=
  ⟨rfl, rfl, rfl, rfl, rfl, rfl, rfl, rfl, rfl, rfl, rfl, mapCurrent_reset, reset_memories_wf,
    statusLegal_reset, vstatLegal_reset, nofun, nofun⟩

/-! ## What may change STATUS in a step -/

/-- The accepted command is one of a longer list. -/
theorem acceptsOneOf_of_mem {i : Instr} {is : List Instr} {s : State} (h : acceptsOneOf [i] s)
    (hi : i ∈ is) : acceptsOneOf is s := by
  obtain ⟨hrsp, w, rest, j, hhost, hw, hj⟩ := h
  cases List.mem_singleton.mp hj
  exact ⟨hrsp, w, rest, i, hhost, hw, hi⟩

/-- What a step does to STATUS: nothing, the reset input's clearing, what the accepted command's rule
says, or the error path. -/
theorem step_status {s t : State} (h : step s = .next t) :
    t.status = s.status ∨ (meetsReset s ∧ t.status = State.reset.status) ∨
    (∃ i, acceptsOneOf [i] s ∧ StatusAfter i s.status t.status) ∨
    ∃ e, t.rsp = failure e ∧ t.status = recordError e s.status := by
  rcases step_cases h with ⟨w, rest, hrsp, hhost, hw⟩ | ht | ⟨hreset, ht⟩
  · obtain ⟨u, hu, hcase⟩ := runWord_cases w { s with host := rest }
    cases hw.symm.trans hu
    rcases hcase with ⟨i, hi, hx⟩ | rfl
    · rcases exec_outcome hx with ⟨d, -, hstatus⟩ | ⟨e, rfl⟩
      · have haccepts : acceptsOneOf [i] s :=
          ⟨hrsp, w, rest, i, hhost, hi, List.mem_singleton_self i⟩
        exact .inr (.inr (.inl ⟨i, haccepts, hstatus⟩))
      · exact .inr (.inr (.inr ⟨e, rfl, rfl⟩))
    · exact .inr (.inr (.inr ⟨.illegalCommand, rfl, rfl⟩))
  · exact .inl (ht ▸ rfl)
  · exact .inr (.inl ⟨hreset, ht ▸ rfl⟩)

/-- Settles O60: the four ways a step leaves STATUS, one flag and direction at a time. -/
theorem flagsChangeOnlyAsNamed : Obligations.FlagsChangeOnlyAsNamed := by
  intro s t h
  rcases step_status h with heq | ⟨hreset, heq⟩ | ⟨i, hi, hstatus⟩ | ⟨e, hrsp, heq⟩
  · simp +contextual [heq]
  · exact ⟨fun _ _ => .inr hreset, by simp [heq, State.reset], fun _ _ => .inr hreset,
      by simp [heq, State.reset]⟩
  · refine ⟨fun hs ht => .inl ?_, fun hs ht => ?_, fun hs ht => .inl ?_, fun hs ht => ?_⟩
    · exact acceptsOneOf_of_mem hi (hstatus.clears_cv hs ht)
    · exact hstatus.sets_cv hs ht ▸ hi
    · exact acceptsOneOf_of_mem hi (hstatus.clears_err hs ht)
    · simp [hstatus.not_sets_err hs] at ht
  · refine ⟨fun hs ht => ?_, fun hs ht => ?_, fun _ ht => ?_, fun _ _ => ⟨e, hrsp⟩⟩
    · simp [heq, hs] at ht
    · simp [heq, hs] at ht
    · simp [heq] at ht

/-! ## The collision map -/

/-- Settles O51: a command that neither builds nor clears the map keeps both memories. -/
theorem onlyCrunWritesMemories : Obligations.OnlyCrunWritesMemories := by
  intro i s t hcrun hsrst h
  cases exec_mapEffect h with
  | built hi => exact absurd hi hcrun
  | cleared hi => exact absurd hi hsrst
  | kept _ _ hc hl => simp [cntRead, listRead, hc, hl]

/-- While CV is 0 a command other than CRUN completes and leaves CV at 0. -/
theorem exec_keeps_cv_false {i : Instr} {s : State} (hi : i ≠ .crun) (hcv : s.status.cv = false) :
    ∃ t, exec i s = .next t ∧ t.status.cv = false := by
  obtain ⟨t, h⟩ := exec_completes i s
  refine ⟨t, h, ?_⟩
  rcases exec_outcome h with ⟨d, -, hstatus⟩ | ⟨e, rfl⟩
  · by_contra ht
    exact hi (hstatus.sets_cv hcv (Bool.not_eq_false _ ▸ ht))
  · exact hcv

/-- While CV is 0 a list of commands without CRUN completes and leaves CV at 0. -/
theorem execAll_keeps_cv_false {is : List Instr} {s : State} (hcv : s.status.cv = false)
    (hcrun : .crun ∉ is) : ∃ t, execAll is s = .next t ∧ t.status.cv = false := by
  induction is generalizing s with
  | nil => exact ⟨s, rfl, hcv⟩
  | cons i is ih =>
    obtain ⟨hne, hrest⟩ := List.ne_and_not_mem_of_not_mem_cons hcrun
    obtain ⟨u, hu, hucv⟩ := exec_keeps_cv_false hne.symm hcv
    obtain ⟨t, ht, htcv⟩ := ih hucv hrest
    exact ⟨t, by simp [execAll, hu, ht], htcv⟩

/-- CCNT answers NotReady while CV is 0 (R163). -/
theorem exec_ccnt_notReady (k : Index) {s : State} (hcv : s.status.cv = false) :
    exec (.ccnt k) s = .next (s.raise .notReady) := by
  simp [exec, execCcnt, hcv]

/-- CBASE answers NotReady while CV is 0 (R164). -/
theorem exec_cbase_notReady (k : Index) {s : State} (hcv : s.status.cv = false) :
    exec (.cbase k) s = .next (s.raise .notReady) := by
  simp [exec, execCbase, hcv]

/-- CLIST answers NotReady while CV is 0 (R165). -/
theorem exec_clist_notReady (n : Half) {s : State} (hcv : s.status.cv = false) :
    exec (.clist n) s = .next (s.raise .notReady) := by
  simp [exec, execClist, hcv]

/-- Settles O53, by induction on the list of commands. -/
theorem mapUnreadableUntilCrun : Obligations.MapUnreadableUntilCrun := by
  intro is s hcv hcrun
  obtain ⟨t, ht, htcv⟩ := execAll_keeps_cv_false hcv hcrun
  exact ⟨t, ht, htcv, fun k n =>
    ⟨exec_ccnt_notReady k htcv, exec_cbase_notReady k htcv, exec_clist_notReady n htcv⟩⟩

/-! ## Which registers a command leaves as they read -/

/-- Answering changes no register. -/
@[simp] theorem readReg_respond (s : State) (d : Word) (r : Reg) :
    (s.respond d).readReg r = s.readReg r := by cases r <;> rfl

/-! One lemma per register written: every other one reads as before. -/

theorem readReg_with_crc (s : State) (v : Word) {r : Reg} (h : r ≠ .crc) :
    { s with crc := v }.readReg r = s.readReg r := by
  cases r with
  | crc => exact absurd rfl h
  | _ => rfl

theorem readReg_with_cnt (s : State) (v : Word) {r : Reg} (h : r ≠ .cnt) :
    { s with cnt := v }.readReg r = s.readReg r := by
  cases r with
  | cnt => exact absurd rfl h
  | _ => rfl

theorem readReg_with_res (s : State) (v : Word) {r : Reg} (h : r ≠ .res) :
    { s with res := v }.readReg r = s.readReg r := by
  cases r with
  | res => exact absurd rfl h
  | _ => rfl

theorem readReg_with_refl (s : State) (v : Word) {r : Reg} (h : r ≠ .refl) :
    { s with refl := v }.readReg r = s.readReg r := by
  cases r with
  | refl => exact absurd rfl h
  | _ => rfl

theorem readReg_with_hth (s : State) (v : Word) {r : Reg} (h : r ≠ .hth) :
    { s with hth := v }.readReg r = s.readReg r := by
  cases r with
  | hth => exact absurd rfl h
  | _ => rfl

theorem readReg_with_htl (s : State) (v : Word) {r : Reg} (h : r ≠ .htl) :
    { s with htl := v }.readReg r = s.readReg r := by
  cases r with
  | htl => exact absurd rfl h
  | _ => rfl

theorem readReg_with_data (s : State) (v : Word) {r : Reg} (h : r ≠ .data) :
    { s with data := v }.readReg r = s.readReg r := by
  cases r with
  | data => exact absurd rfl h
  | _ => rfl

theorem readReg_with_vstat (s : State) (v : Vstat) {r : Reg} (h : r ≠ .vstat) :
    { s with vstat := v }.readReg r = s.readReg r := by
  cases r with
  | vstat => exact absurd rfl h
  | _ => rfl

/-- The memories are no registers, so a command that writes them beside STATUS changes STATUS alone. -/
theorem readReg_with_status (s : State) (f : Status) (c : Memory 17) (l : Memory 16)
    {r : Reg} (h : r ≠ .status) :
    { s with status := f, cntmem := c, listmem := l }.readReg r = s.readReg r := by
  cases r with
  | status => exact absurd rfl h
  | _ => rfl

/-- A write of PREFIX clears CV too (R184), and changes no register but these two. -/
theorem readReg_with_pfx (s : State) (v : Word) (f : Status) {r : Reg} (h : r ≠ .pfx)
    (hstatus : r ≠ .status) : { s with pfx := v, status := f }.readReg r = s.readReg r := by
  cases r with
  | pfx => exact absurd rfl h
  | status => exact absurd rfl hstatus
  | _ => rfl

/-- The error path changes no register but STATUS (R204). -/
theorem readReg_raise (s : State) (e : Error) {r : Reg} (hr : r ≠ .status) :
    (s.raise e).readReg r = s.readReg r := by
  cases r with
  | status => exact absurd rfl hr
  | _ => rfl

/-- Feeding bytes changes no register but CRC and CNT (R113 to R115). -/
theorem readReg_feedBytes (s : State) (bytes : List Byte) {r : Reg} (hcrc : r ≠ .crc)
    (hcnt : r ≠ .cnt) : (s.feedBytes bytes).readReg r = s.readReg r := by
  rw [feedBytes_eq]
  exact (readReg_with_cnt { s with crc := _ } _ hcnt).trans (readReg_with_crc s _ hcrc)

/-- The hash datapath changes no register but RES, REFL and IDX (R131). -/
theorem readReg_extractHash (s : State) {r : Reg} (hres : r ≠ .res) (hrefl : r ≠ .refl)
    (hidx : r ≠ .idx) : s.extractHash.readReg r = s.readReg r := by
  cases r with
  | res => exact absurd rfl hres
  | refl => exact absurd rfl hrefl
  | idx => exact absurd rfl hidx
  | _ => rfl

/-- A write of the bitmap changes no register but HTH and HTL (R140). -/
theorem readReg_with_bitmap (s : State) (h l : Word) {r : Reg} (hhth : r ≠ .hth) (hhtl : r ≠ .htl) :
    { s with hth := h, htl := l }.readReg r = s.readReg r :=
  (readReg_with_htl { s with hth := h } l hhtl).trans (readReg_with_hth s h hhth)

/-- A write by WR changes no register but the one written, and STATUS (R184). -/
theorem readReg_writeReg {s t : State} {q r : Reg} {v : Word} (h : s.writeReg q v = some t)
    (hne : r ≠ q) (hstatus : r ≠ .status) : t.readReg r = s.readReg r := by
  cases q with
  | crc => cases h; exact readReg_with_crc s v hne
  | cnt => cases h; exact readReg_with_cnt s v hne
  | hth => cases h; exact readReg_with_hth s v hne
  | htl => cases h; exact readReg_with_htl s v hne
  | data => cases h; exact readReg_with_data s v hne
  | pfx => cases h; exact readReg_with_pfx s v _ hne hstatus
  | res | refl | idx | status | vstat => cases h

/-- A command of R59 changes nothing but the response, or takes the error path. -/
theorem exec_readsOnly {i : Instr} {s t : State} (hi : readsOnly i = true)
    (h : exec i s = .next t) : (∃ d, t = s.respond d) ∨ ∃ e, t = s.raise e := by
  cases i with
  | rd | ccnt | cbase | clist =>
    simp only [exec, execRd, execCcnt, execCbase, execClist] at h
    split at h
    · cases h; exact .inl ⟨_, rfl⟩
    · cases h; exact .inr ⟨_, rfl⟩
  | cprobe => cases h; exact .inl ⟨_, rfl⟩
  | _ => cases hi

/-- WR writes the register its number names and answers DATA, or raises IllegalCommand (R184). -/
theorem exec_wr_cases {rn : RegNum} {s t : State} (h : exec (.wr rn) s = .next t) :
    (∃ q u, regOfNum rn = some q ∧ s.writeReg q s.data = some u ∧ t = u.respond s.data) ∨
    t = s.raise .illegalCommand := by
  simp only [exec, execWr] at h
  split at h
  · next u hu =>
    obtain ⟨q, hq, hw⟩ := Option.bind_eq_some_iff.mp hu
    cases h
    exact .inl ⟨q, u, hq, hw, rfl⟩
  · cases h
    exact .inr rfl

/-- The register WR writes names that command as its writer. -/
theorem names_wr {rn : RegNum} {q : Reg} {s u : State} {v : Word} (hq : regOfNum rn = some q)
    (hw : s.writeReg q v = some u) : names q (.wr rn) = true := by
  cases q with
  | res | refl | idx | status | vstat => cases hw
  | crc | cnt | hth | htl | data | pfx => clear hw; revert rn; decide

/-- Every register names SRST as a writer (R189). -/
theorem names_srst (r : Reg) : names r .srst = true := by cases r <;> rfl

/-- A command that writes `q` and not `r` tells the two apart. -/
theorem ne_of_names {r q : Reg} {i : Instr} (hr : names r i = false) (hq : names q i = true) :
    r ≠ q := by
  rintro rfl
  simp [hr] at hq

/-- A command that is not a named writer of a register other than STATUS leaves it as it reads. -/
theorem exec_readReg_of_not_names {r : Reg} {i : Instr} {s t : State} (hr : r ≠ .status)
    (hn : names r i = false) (h : exec i s = .next t) : t.readReg r = s.readReg r := by
  cases i with
  | nop => cases h; exact readReg_respond s _ r
  | reflect =>
    cases h
    rw [readReg_respond]
    exact readReg_with_refl s _ (ne_of_names hn rfl)
  | init =>
    cases h
    rw [readReg_respond]
    exact (readReg_with_cnt { s with crc := _ } _ (ne_of_names hn rfl)).trans
      (readReg_with_crc s _ (ne_of_names hn rfl))
  | byte b =>
    cases h
    rw [readReg_respond]
    exact readReg_feedBytes s [b] (ne_of_names hn rfl) (ne_of_names hn rfl)
  | feedh | feedw =>
    cases h
    rw [readReg_respond]
    exact readReg_feedBytes s _ (ne_of_names hn rfl) (ne_of_names hn rfl)
  | final =>
    cases h
    rw [readReg_respond]
    exact readReg_with_res s _ (ne_of_names hn rfl)
  | hash =>
    cases h
    rw [readReg_respond]
    exact readReg_extractHash s (ne_of_names hn rfl) (ne_of_names hn rfl) (ne_of_names hn rfl)
  | hashmac =>
    simp only [exec, execHashmac] at h
    split at h
    · cases h
      rw [readReg_respond]
      exact readReg_extractHash s (ne_of_names hn rfl) (ne_of_names hn rfl) (ne_of_names hn rfl)
    · cases h
      exact readReg_raise s _ hr
  | mapclr | mapset | mapor | mapori =>
    cases h
    rw [readReg_respond]
    exact readReg_with_bitmap s _ _ (ne_of_names hn rfl) (ne_of_names hn rfl)
  | verify =>
    cases h
    rw [readReg_respond]
    exact readReg_with_vstat s _ (ne_of_names hn rfl)
  | crun =>
    cases h
    rw [readReg_respond]
    exact readReg_with_status s _ _ _ hr
  | rd | ccnt | cbase | clist | cprobe =>
    rcases exec_readsOnly rfl h with ⟨d, rfl⟩ | ⟨e, rfl⟩
    · exact readReg_respond s d r
    · exact readReg_raise s e hr
  | ldlo | ldhi =>
    cases h
    rw [readReg_respond]
    exact readReg_with_data s _ (ne_of_names hn rfl)
  | wr rn =>
    rcases exec_wr_cases h with ⟨q, u, hq, hw, rfl⟩ | rfl
    · rw [readReg_respond]
      exact readReg_writeReg hw (ne_of_names hn (names_wr hq hw)) hr
    · exact readReg_raise s _ hr
  | clrerr =>
    cases h
    rw [readReg_respond]
    exact readReg_with_status s _ _ _ hr
  | srst => simp [names_srst] at hn

/-- A success of a command STATUS does not name as a writer leaves STATUS as it is (R30). -/
theorem StatusAfter.eq_of_not_names {i : Instr} {f g : Status} (h : StatusAfter i f g)
    (hn : names .status i = false) : g = f := by
  rcases h with hg | ⟨rfl, -⟩ | ⟨rfl, -⟩ | ⟨rfl, -⟩ | ⟨rfl, -⟩
  · exact hg
  all_goals cases hn

/-- Settles O50: `exec_readReg_of_not_names` for all registers but STATUS, and for STATUS the two
outcomes of a command. -/
theorem onlyNamedWritersChangeRegisters : Obligations.OnlyNamedWritersChangeRegisters := by
  refine ⟨fun r i s t hr hn h => exec_readReg_of_not_names hr hn h, fun i s t r hn h hrsp => ?_⟩
  rcases exec_outcome h with ⟨d, hd, hstatus⟩ | ⟨e, rfl⟩
  · cases hd.symm.trans hrsp
    exact ⟨fun _ => congrArg statusWord (hstatus.eq_of_not_names hn), fun hc => absurd rfl hc⟩
  · cases hrsp
    exact ⟨fun hc => absurd hc (errorCode_ne_zero e), fun _ => rfl⟩

/-! ## The fields of STATUS and VSTAT -/

/-- R30: the fields of STATUS in the word RD answers. -/
theorem statusWord_fields (f : Status) :
    (statusWord f).getLsbD 0 = f.err ∧ (statusWord f).extractLsb' 1 3 = 0 ∧
    (statusWord f).extractLsb' 4 4 = f.ecode ∧ (statusWord f).getLsbD 8 = f.cv ∧
    (statusWord f).extractLsb' 9 23 = 0 := by
  refine ⟨?_, ?_, ?_, ?_, ?_⟩ <;>
    simp [statusWord, flagBit, BitVec.getLsbD_append, BitVec.extractLsb'_append_eq_of_le,
      BitVec.extractLsb'_append_eq_of_add_le, -Nat.reduceAdd, -BitVec.getLsbD_eq_getElem]

/-- R33: the fields of VSTAT in the word RD answers. -/
theorem vstatWord_fields (v : Vstat) :
    (vstatWord v).extractLsb' 0 6 = v.vidx0 ∧ (vstatWord v).extractLsb' 6 6 = v.vidx1 ∧
    (vstatWord v).extractLsb' 12 6 = v.vidx2 ∧ (vstatWord v).getLsbD 18 = v.m0 ∧
    (vstatWord v).getLsbD 19 = v.m1 ∧ (vstatWord v).getLsbD 20 = v.m2 ∧
    (vstatWord v).getLsbD 21 = v.allpass ∧ (vstatWord v).getLsbD 22 = v.vdone ∧
    (vstatWord v).extractLsb' 23 9 = 0 := by
  refine ⟨?_, ?_, ?_, ?_, ?_, ?_, ?_, ?_, ?_⟩ <;>
    simp [vstatWord, flagBit, BitVec.getLsbD_append, BitVec.extractLsb'_append_eq_of_le,
      BitVec.extractLsb'_append_eq_of_add_le, -Nat.reduceAdd, -BitVec.getLsbD_eq_getElem]

/-- Settles O32, field by field. -/
theorem statusFieldsReadInPlace : Obligations.StatusFieldsReadInPlace :=
  ⟨statusWord_fields, vstatWord_fields⟩

end Sys2Proof.Machine

/-! Splitting CRUN's enumeration (R68), and commands that repeated change nothing (R59). -/

namespace Sys2Proof.Machine

open Sys2Proof.Safety

/-! ## Splitting the enumeration across workers -/

/-- Merging the workers' lists of a bucket is taking that bucket from all their pairs in order. -/
theorem mergedBucket_eq_bucketOf_flatten (workers : List (List (Half × Index))) (k : Index) :
    mergedBucket workers k = bucketOf workers.flatten k := by
  simp only [mergedBucket, bucketOf, List.filter_flatten, List.map_flatten, List.map_map,
    List.flatMap_def, Function.comp_def]

/-- The results of a split of all pairs, one after another, are the sequential enumeration. -/
theorem flatten_workerResults (pfx : Word) {parts : List (List Half)}
    (h : parts.flatten = allPairs) : (workerResults pfx parts).flatten = enumeration pfx := by
  rw [workerResults, ← List.map_flatten, h, enumeration]

/-- The merged lists of any split are the buckets of the sequential enumeration. -/
theorem mergedBucket_workerResults (pfx : Word) {parts : List (List Half)}
    (h : parts.flatten = allPairs) :
    mergedBucket (workerResults pfx parts) = bucketOf (enumeration pfx) := by
  funext k
  rw [mergedBucket_eq_bucketOf_flatten, flatten_workerResults pfx h]

/-- Settles O48: by `mergedBucket_workerResults` the memories made of the merged lists are those
CRUN builds from the sequential enumeration. -/
theorem workersAreInvisible : Obligations.WorkersAreInvisible := by
  intro s parts hparts
  rw [mergedBucket_workerResults s.pfx hparts]
  refine ⟨bucketOf_enumeration s.pfx, ?_⟩
  obtain ⟨t, ht⟩ := exec_completes .crun s
  cases exec_mapEffect ht with
  | built _ hc hl => exact ⟨t, ht, hc, hl⟩
  | cleared h => cases h
  | kept h => exact absurd rfl h

/-! ## Repeating a command -/

/-- An error raised again leaves what raising it once left (R31, R204). -/
@[simp] theorem raise_raise (s : State) (e : Error) : (s.raise e).raise e = s.raise e := by
  have hstatus : recordError e (recordError e s.status) = recordError e s.status :=
    recordError_of_err e rfl
  simp only [State.raise, hstatus]

/-- A command of R59 that reads, run again where it led, changes nothing: CV and what it reads are
as they were, whether it answered or raised an error. -/
theorem exec_readsOnly_again {i : Instr} {s t : State} (hi : readsOnly i = true)
    (h : exec i s = .next t) : exec i t = .next t := by
  cases i with
  | rd rn =>
    simp only [exec, execRd] at h ⊢
    split at h
    · cases h; simp only [readReg_respond]; rfl
    · cases h; simp only [raise_raise]
  | ccnt | cbase | clist =>
    simp only [exec, execCcnt, execCbase, execClist] at h ⊢
    split at h
    · next hcv => cases h; exact if_pos hcv
    · next hcv => cases h; simp [hcv]
  | cprobe => cases h; rfl
  | _ => cases hi

/-- VERIFY run again where it led changes nothing: it computes from VROM alone (R150). -/
theorem exec_verify_again {s t : State} (h : exec .verify s = .next t) :
    exec .verify t = .next t := by
  cases h
  rfl

/-- CRUN run again where it led changes nothing: it builds from PREFIX alone, which it keeps
(R161). -/
theorem exec_crun_again {s t : State} (h : exec .crun s = .next t) : exec .crun t = .next t := by
  cases h
  rfl

/-- A command that changes nothing when it is run again where it led: twice leaves what once leaves. -/
theorem execAll_once_and_twice {i : Instr} (hi : ∀ {s t : State}, exec i s = .next t →
    exec i t = .next t) (s : State) :
    ∃ t, execAll [i] s = .next t ∧ execAll [i, i] s = .next t := by
  obtain ⟨t, h⟩ := exec_completes i s
  exact ⟨t, by simp only [execAll, h], by simp only [execAll, h, hi h]⟩

/-- Settles O52: a success of a reading command writes the response alone (`exec_readsOnly`), and a
repeated one ends where it began. -/
theorem readsHaveNoSideEffects : Obligations.ReadsHaveNoSideEffects := by
  refine ⟨fun i s t r hi h hrsp => ⟨fun hcode => ?_, t, exec_readsOnly_again hi h, rfl⟩,
    fun s => ⟨execAll_once_and_twice exec_verify_again s, execAll_once_and_twice exec_crun_again s⟩⟩
  rcases exec_readsOnly hi h with ⟨d, rfl⟩ | ⟨e, rfl⟩
  · rfl
  · cases hrsp
    exact absurd hcode (errorCode_ne_zero e)

end Sys2Proof.Machine

/-! The encoding (30_encoding sections 1 to 4): R79's decoder, R78's match and mask, and the words
the encoder assembles are one arithmetic condition on a word, format by format. -/

namespace Sys2Proof

open Sys2Proof.Machine
open Sys2Proof.Safety

/-! ## The words of a format as numbers -/

/-- The number of operand bits of a format, 0 where it has no operand (R72 to R76). -/
def operandBits (f : Format) : Nat := (operandWidth f).getD 0

/-- The word the encoder assembles in a format from an opcode and the operand field of `w`. -/
def formatWord (f : Format) (op : Byte) (w : Word) : Word :=
  match f with
  | .n => wordN op
  | .b => wordB op (imm8Field w)
  | .k => wordK op (kField w)
  | .r => wordR op (rnField w)
  | .i => wordI op (imm16Field w)

/-- Concatenation as arithmetic. -/
theorem toNat_append_eq_add {m n : Nat} (x : BitVec m) (y : BitVec n) :
    (x ++ y).toNat = x.toNat * 2 ^ n + y.toNat := by
  rw [BitVec.toNat_append, ← Nat.shiftLeft_add_eq_or_of_lt y.isLt, Nat.shiftLeft_eq]

/-- The reserved field of a format is all that lies between opcode and operand. -/
theorem reservedFieldZero_iff (f : Format) (w : Word) :
    reservedFieldZero f w = true ↔
      w.toNat % 2 ^ 24 = w.toNat % 2 ^ operandBits f := by
  cases f <;>
    simp only [reservedFieldZero, beq_iff_eq, ← BitVec.toNat_inj, BitVec.extractLsb'_toNat,
      Nat.shiftRight_eq_div_pow, operandBits, operandWidth, Option.getD, BitVec.ofNat_eq_ofNat,
      BitVec.toNat_ofNat, Nat.reducePow] <;>
    omega

/-- A word has an opcode and a zero reserved field exactly when it is opcode plus operand. -/
theorem opField_and_reservedFieldZero_iff (f : Format) (op : Byte) (w : Word) :
    opField w = op ∧ reservedFieldZero f w = true ↔
      w.toNat = op.toNat * 2 ^ 24 + w.toNat % 2 ^ operandBits f := by
  have hoperand : w.toNat % 2 ^ operandBits f < 2 ^ 24 := by
    refine (Nat.mod_lt _ (by positivity)).trans_le (Nat.pow_le_pow_right (by decide) ?_)
    cases f <;> decide
  have hlt := w.isLt
  rw [reservedFieldZero_iff, ← BitVec.toNat_inj, opField, BitVec.extractLsb'_toNat,
    Nat.shiftRight_eq_div_pow]
  omega

/-- An assembled word is opcode plus operand. -/
theorem toNat_formatWord (f : Format) (op : Byte) (w : Word) :
    (formatWord f op w).toNat = op.toNat * 2 ^ 24 + w.toNat % 2 ^ operandBits f := by
  cases f <;>
    simp only [formatWord, wordN, wordB, wordK, wordR, wordI, toNat_append_eq_add, imm8Field,
      kField, rnField, imm16Field, BitVec.extractLsb'_toNat, operandBits, operandWidth, Option.getD,
      BitVec.ofNat_eq_ofNat, BitVec.toNat_ofNat, Nat.shiftRight_zero] <;>
    omega

/-- Masking a word with its format's mask clears the operand (R78). -/
theorem toNat_and_formatMask (f : Format) (w : Word) :
    (w &&& formatMask f).toNat + w.toNat % 2 ^ operandBits f = w.toNat := by
  have hmask : formatMask f = BitVec.allOnes 32 <<< operandBits f := by cases f <;> decide
  have hlt : w.toNat / 2 ^ operandBits f * 2 ^ operandBits f < 2 ^ 32 :=
    (Nat.div_mul_le_self _ _).trans_lt w.isLt
  rw [hmask, ← BitVec.shiftLeft_ushiftRight, BitVec.toNat_shiftLeft, BitVec.toNat_ushiftRight,
    Nat.shiftRight_eq_div_pow, Nat.shiftLeft_eq, Nat.mod_eq_of_lt hlt, Nat.div_add_mod']

/-- The encoder's words of a format are those with the opcode and a zero reserved field. -/
theorem formatWord_eq_self_iff (f : Format) (op : Byte) (w : Word) :
    formatWord f op w = w ↔ opField w = op ∧ reservedFieldZero f w = true := by
  rw [opField_and_reservedFieldZero_iff, ← BitVec.toNat_inj, toNat_formatWord, eq_comm]

/-- A word selects a row by mask and match exactly when it has the row's opcode and its format's
reserved field is zero (R78 against R79). -/
theorem selectsRow_iff (w : Word) (row : OpcodeRow) :
    selectsRow w row = true ↔ opField w = row.op ∧ reservedFieldZero row.format w = true := by
  have hmatch : (rowMatch row).toNat = row.op.toNat * 2 ^ 24 := by
    rw [rowMatch, toNat_append_eq_add, BitVec.ofNat_eq_ofNat, BitVec.toNat_ofNat, Nat.zero_mod,
      Nat.add_zero]
  have hmask := toNat_and_formatMask row.format w
  rw [opField_and_reservedFieldZero_iff, selectsRow, beq_iff_eq, ← BitVec.toNat_inj, hmatch]
  omega

/-! ## The opcode map against the encoder -/

/-- A row is determined by its opcode (R78). -/
theorem row_eq_of_op_eq {row₁ row₂ : OpcodeRow} (h₁ : row₁ ∈ opcodeTable) (h₂ : row₂ ∈ opcodeTable)
    (hop : row₁.op = row₂.op) : row₁ = row₂ :=
  List.inj_on_of_nodup_map opcodeTable_ops_nodup h₁ h₂ hop

/-- A word decodes to the command of the row whose opcode it has, if the reserved field is zero, and
to nothing else (R79). -/
theorem decode_eq_ok_iff (w : Word) (i : Instr) :
    decode w = .ok i ↔ ∃ row ∈ opcodeTable,
      (opField w = row.op ∧ reservedFieldZero row.format w = true) ∧ i = row.operands w := by
  constructor
  · intro h
    by_cases hassigned : ∃ row ∈ opcodeTable, row.op = opField w
    · obtain ⟨row, hrow, hop⟩ := hassigned
      rw [decode_of_row hrow hop.symm] at h
      split at h
      · next hzero => cases h; exact ⟨row, hrow, ⟨hop.symm, hzero⟩, rfl⟩
      · cases h
    · rw [decode_of_no_row fun row hrow hop => hassigned ⟨row, hrow, hop⟩] at h
      cases h
  · rintro ⟨row, hrow, ⟨hop, hzero⟩, rfl⟩
    rw [decode_of_row hrow hop, if_pos hzero]

/-- The encoder writes a row's command in the row's format and opcode (R78). -/
theorem encode_operands {row : OpcodeRow} (hrow : row ∈ opcodeTable) (w : Word) :
    encode (row.operands w) = formatWord row.format row.op w := by
  unfold opcodeTable opcodeRowsCore opcodeRowsSystem at hrow
  fin_cases hrow <;> rfl

/-! The operand field of an assembled word. -/

@[simp] theorem imm8Field_wordB (op imm8 : Byte) : imm8Field (wordB op imm8) = imm8 :=
  BitVec.extractLsb'_append_eq_right

@[simp] theorem kField_wordK (op : Byte) (k : Index) : kField (wordK op k) = k :=
  BitVec.extractLsb'_append_eq_right

@[simp] theorem rnField_wordR (op : Byte) (rn : RegNum) : rnField (wordR op rn) = rn :=
  BitVec.extractLsb'_append_eq_right

@[simp] theorem imm16Field_wordI (op : Byte) (imm16 : Half) : imm16Field (wordI op imm16) = imm16 :=
  BitVec.extractLsb'_append_eq_right

/-- Every command is read back from its own word by some row of the opcode map. -/
theorem exists_row_operands_encode (i : Instr) :
    ∃ row ∈ opcodeTable, row.operands (encode i) = i := by
  cases i with
  | byte b => exact ⟨opcodeTable[3], List.getElem_mem _, congrArg _ (imm8Field_wordB 0x21 b)⟩
  | mapori k => exact ⟨opcodeTable[12], List.getElem_mem _, congrArg _ (kField_wordK 0x43 k)⟩
  | ccnt k => exact ⟨opcodeTable[15], List.getElem_mem _, congrArg _ (kField_wordK 0x61 k)⟩
  | cbase k => exact ⟨opcodeTable[16], List.getElem_mem _, congrArg _ (kField_wordK 0x62 k)⟩
  | clist n => exact ⟨opcodeTable[17], List.getElem_mem _, congrArg _ (imm16Field_wordI 0x63 n)⟩
  | cprobe n => exact ⟨opcodeTable[18], List.getElem_mem _, congrArg _ (imm16Field_wordI 0x64 n)⟩
  | ldlo n => exact ⟨opcodeTable[19], List.getElem_mem _, congrArg _ (imm16Field_wordI 0x70 n)⟩
  | ldhi n => exact ⟨opcodeTable[20], List.getElem_mem _, congrArg _ (imm16Field_wordI 0x71 n)⟩
  | rd rn => exact ⟨opcodeTable[21], List.getElem_mem _, congrArg _ (rnField_wordR 0x72 rn)⟩
  | wr rn => exact ⟨opcodeTable[22], List.getElem_mem _, congrArg _ (rnField_wordR 0x73 rn)⟩
  | nop | reflect | init | feedh | feedw | final | hash | hashmac | mapclr | mapset | mapor | verify
  | crun | clrerr | srst => decide

/-- Settles O2: the row that reads the operand back wrote the word (`encode_operands`), so the word
has its opcode and a zero reserved field. -/
theorem decodeEncodeAgree : Obligations.DecodeEncodeAgree := by
  intro i
  obtain ⟨row, hrow, hi⟩ := exists_row_operands_encode i
  have hword : formatWord row.format row.op (encode i) = encode i := by
    rw [← encode_operands hrow, hi]
  exact (decode_eq_ok_iff _ _).mpr ⟨row, hrow, (formatWord_eq_self_iff _ _ _).mp hword, hi.symm⟩

/-- Settles O3: a word that decodes has the opcode and the zero reserved field of its command's row,
so it is the word the encoder assembles. -/
theorem encodeDecodeAgree : Obligations.EncodeDecodeAgree := by
  intro w i h
  obtain ⟨row, hrow, hfields, rfl⟩ := (decode_eq_ok_iff w i).mp h
  rw [encode_operands hrow]
  exact (formatWord_eq_self_iff _ _ _).mpr hfields

/-- Settles O4: selection by mask and match is the decoder's own condition (`selectsRow_iff`), and
it fixes the opcode. -/
theorem tableRowSelectsCommand : Obligations.TableRowSelectsCommand := by
  refine ⟨fun w i => ?_, fun w row₁ h₁ row₂ h₂ hsel₁ hsel₂ => ?_⟩
  · simp only [decode_eq_ok_iff, selectsRow_iff]
  · obtain ⟨hop₁, -⟩ := (selectsRow_iff w row₁).mp hsel₁
    obtain ⟨hop₂, -⟩ := (selectsRow_iff w row₂).mp hsel₂
    exact congrArg OpcodeRow.mnemonic (row_eq_of_op_eq h₁ h₂ (hop₁.symm.trans hop₂))

/-! ## Words that do not decode -/

/-- A word that does not decode takes the error path with IllegalCommand (R79). -/
theorem runWord_of_decode_error {w : Word} {e : DecodeError} (h : decode w = .error e) (s : State) :
    runWord w s = .next (s.raise .illegalCommand) := by
  rw [runWord, h]

/-- R80's ranges are the opcodes of no row. -/
theorem reservedOpcode_iff (op : Byte) : reservedOpcode op ↔ ∀ row ∈ opcodeTable, row.op ≠ op := by
  revert op
  decide

/-- Settles O5: R80's ranges are the opcodes of no row, and the decoder refuses those. -/
theorem reservedOpcodesRaise : Obligations.ReservedOpcodesRaise :=
  ⟨fun w s h =>
      runWord_of_decode_error (decode_of_no_row ((reservedOpcode_iff (opField w)).mp h)) s,
    reservedOpcode_iff⟩

/-- Settles O6: the decoder refuses a nonzero reserved field, and NOP's one word is 0. -/
theorem nonzeroReservedFieldsRaise : Obligations.NonzeroReservedFieldsRaise := by
  refine ⟨fun row hrow w s hop hfield => ?_, fun w => ⟨fun h => ?_, ?_⟩⟩
  · have hzero : ¬ reservedFieldZero row.format w = true := by
      revert hfield
      cases row.format <;> simp [reservedFieldZero, ← BitVec.toNat_inj]
    exact runWord_of_decode_error ((decode_of_row hrow hop).trans (if_neg hzero)) s
  · exact (encodeDecodeAgree w .nop h).symm
  · rintro rfl
    exact decodeEncodeAgree .nop

/-- Settles O1: each decode is evaluated on its word. -/
theorem specWordsDecode : Obligations.SpecWordsDecode := by
  unfold Obligations.SpecWordsDecode
  decide

end Sys2Proof

/-! The assembler's pseudo-commands (R86): what LDI, FEED6 and MACHASH leave behind. -/

namespace Sys2Proof.Machine

open Sys2Proof.Safety

/-! ## Sequences of commands -/

/-- A command that completes goes on to the rest of the list. -/
theorem execAll_cons_of_next {i : Instr} {s t : State} (h : exec i s = .next t) (is : List Instr) :
    execAll (i :: is) s = execAll is t := by
  rw [execAll, h]

/-- A list of commands that completes goes on to the next list. -/
theorem execAll_append_of_next {is : List Instr} {s t : State} (h : execAll is s = .next t)
    (js : List Instr) : execAll (is ++ js) s = execAll js t := by
  induction is generalizing s with
  | nil => cases h; rfl
  | cons i is ih =>
    obtain ⟨u, hu⟩ := exec_completes i s
    rw [execAll_cons_of_next hu] at h
    rw [List.cons_append, execAll_cons_of_next hu, ih h]

/-! ## The halves and bytes of a register as concatenations -/

/-- A word is its halves. -/
theorem halves_append (v : Word) : v.extractLsb' 16 16 ++ v.extractLsb' 0 16 = v := by
  refine BitVec.eq_of_toNat_eq ?_
  rw [toNat_append_eq_add, BitVec.extractLsb'_toNat, BitVec.extractLsb'_toNat,
    Nat.shiftRight_eq_div_pow, Nat.shiftRight_zero]
  omega

/-- An immediate widened to a word is a zero half and the immediate. -/
theorem setWidth_half_eq_append (imm16 : Half) : imm16.setWidth 32 = 0#16 ++ imm16 :=
  BitVec.setWidth_eq_append (by decide)

/-- LDLO's immediate replaces the low half (R181). -/
theorem withLowHalf_append (high low imm16 : Half) :
    withLowHalf (high ++ low) imm16 = high ++ imm16 := by
  rw [withLowHalf, setWidth_half_eq_append]
  change (high ++ low) &&& (BitVec.allOnes 16 ++ 0#16) ||| (0#16 ++ imm16) = high ++ imm16
  rw [BitVec.and_append, BitVec.or_append, BitVec.and_allOnes, BitVec.or_zero, BitVec.and_zero,
    BitVec.zero_or]

/-- LDHI's immediate replaces the high half (R182). -/
theorem withHighHalf_append (high low imm16 : Half) :
    withHighHalf (high ++ low) imm16 = imm16 ++ low := by
  have hshift : imm16.setWidth 32 <<< 16 = imm16 ++ 0#16 := by
    rw [← BitVec.setWidth_eq (imm16 ++ 0#16), BitVec.setWidth_append_eq_shiftLeft_setWidth_or,
      BitVec.setWidth_zero, BitVec.or_zero]
  rw [withHighHalf, hshift]
  change (imm16 ++ 0#16) ||| (high ++ low) &&& (0#16 ++ BitVec.allOnes 16) = imm16 ++ low
  rw [BitVec.and_append, BitVec.or_append, BitVec.and_allOnes, BitVec.and_zero, BitVec.or_zero,
    BitVec.zero_or]

/-- A packed pair is its two bytes (R39). -/
theorem packPair_eq_append (d p : Byte) : packPair d p = d ++ p := by
  rw [packPair, ← BitVec.setWidth_append_eq_shiftLeft_setWidth_or, BitVec.setWidth_eq]

/-- The bytes FEEDH feeds from DATA (R114). -/
theorem feedhBytes_append (b0 b1 b2 b3 : Byte) :
    feedhBytes (b0 ++ b1 ++ b2 ++ b3) = [b2, b3] := by
  simp [feedhBytes, wireByte2, wireByte3, BitVec.extractLsb'_append_eq_of_add_le,
    BitVec.extractLsb'_append_eq_of_le, -Nat.reduceAdd]

/-- The bytes FEEDW feeds from DATA (R115). -/
theorem feedwBytes_append (b0 b1 b2 b3 : Byte) :
    feedwBytes (b0 ++ b1 ++ b2 ++ b3) = [b0, b1, b2, b3] := by
  simp [feedwBytes, wireByte0, wireByte1, wireByte2, wireByte3,
    BitVec.extractLsb'_append_eq_of_add_le, BitVec.extractLsb'_append_eq_of_le, -Nat.reduceAdd]

/-! ## The commands they stand for -/

/-- LDLO writes DATA and the response (R181). -/
theorem exec_ldlo (imm16 : Half) (s : State) :
    exec (.ldlo imm16) s = .next { s with
      data := withLowHalf s.data imm16, rsp := success (withLowHalf s.data imm16) } := rfl

/-- LDHI writes DATA and the response (R182). -/
theorem exec_ldhi (imm16 : Half) (s : State) :
    exec (.ldhi imm16) s = .next { s with
      data := withHighHalf s.data imm16, rsp := success (withHighHalf s.data imm16) } := rfl

/-- INIT starts a new CRC (R112). -/
theorem exec_init (s : State) :
    exec .init s = .next { s with crc := 0xFFFFFFFF, cnt := 0, rsp := success 0xFFFFFFFF } := rfl

/-- FEEDH feeds two bytes of DATA (R114). -/
theorem exec_feedh (s : State) :
    exec .feedh s = .next { s with
      crc := crcFeed s.crc (feedhBytes s.data), cnt := satInc^[2] s.cnt
      rsp := success (crcFeed s.crc (feedhBytes s.data)) } := by
  rw [exec, execFeedh, feedBytes_eq]
  rfl

/-- FEEDW feeds the four bytes of DATA (R115). -/
theorem exec_feedw (s : State) :
    exec .feedw s = .next { s with
      crc := crcFeed s.crc (feedwBytes s.data), cnt := satInc^[4] s.cnt
      rsp := success (crcFeed s.crc (feedwBytes s.data)) } := by
  rw [exec, execFeedw, feedBytes_eq]
  rfl

/-- HASHMAC on six counted bytes is the hash datapath (R131, R132). -/
theorem exec_hashmac_of_cnt {s : State} (h : s.cnt = 6) :
    exec .hashmac s = .next (s.extractHash.respond (s.extractHash.idx.setWidth 32)) := by
  rw [exec, execHashmac, if_pos h]

/-! ## The pseudo-commands -/

/-- LDI leaves its operand in DATA and answers it (R86). -/
theorem execAll_ldiCommands (v : Word) (s : State) :
    execAll (ldiCommands v) s = .next { s with data := v, rsp := success v } := by
  have hdata :
      withLowHalf (withHighHalf s.data (v.extractLsb' 16 16)) (v.extractLsb' 0 16) = v := by
    rw [← halves_append s.data, withHighHalf_append, withLowHalf_append, halves_append]
  rw [ldiCommands, execAll_cons_of_next (exec_ldhi _ s), execAll_cons_of_next (exec_ldlo _ _),
    execAll]
  simp only [hdata]

/-- Four bytes are two halves of two bytes each. -/
theorem four_bytes_eq_halves (b0 b1 b2 b3 : Byte) :
    b0 ++ b1 ++ b2 ++ b3 = ((b0 ++ b1) ++ (b2 ++ b3) : Word) :=
  BitVec.append_assoc

/-- The word FEED6 loads first is its first four bytes (R86). -/
theorem shifted_bytes_eq_append (b0 b1 b2 b3 : Byte) :
    (b0.setWidth 32 <<< 24) ||| (b1.setWidth 32 <<< 16) ||| (b2.setWidth 32 <<< 8) |||
      b3.setWidth 32 = b0 ++ b1 ++ b2 ++ b3 := by
  rw [← BitVec.setWidth_eq (b0 ++ b1 ++ b2 ++ b3),
    BitVec.setWidth_append_append_append_eq_shiftLeft_setWidth_or]

/-- FEED6 feeds its six bytes, and leaves the first two and the last two in DATA (R86). -/
theorem execAll_feed6Commands (b0 b1 b2 b3 b4 b5 : Byte) (s : State) :
    execAll (feed6Commands b0 b1 b2 b3 b4 b5) s = .next { s with
      crc := crcFeed s.crc [b0, b1, b2, b3, b4, b5], cnt := satInc^[6] s.cnt
      data := b0 ++ b1 ++ b4 ++ b5
      rsp := success (crcFeed s.crc [b0, b1, b2, b3, b4, b5]) } := by
  have hlast : withLowHalf (b0 ++ b1 ++ b2 ++ b3) (packPair b4 b5) = b0 ++ b1 ++ b4 ++ b5 := by
    rw [four_bytes_eq_halves, packPair_eq_append, withLowHalf_append, four_bytes_eq_halves]
  rw [feed6Commands, shifted_bytes_eq_append, execAll_append_of_next (execAll_ldiCommands _ s),
    execAll_cons_of_next (exec_feedw _), execAll_cons_of_next (exec_ldlo _ _),
    execAll_cons_of_next (exec_feedh _), execAll]
  simp only [hlast, feedwBytes_append, feedhBytes_append, ← crcFeed_append,
    ← Function.iterate_add_apply]
  rfl

/-- The commands MACHASH stands for end with HASHMAC's datapath on the six bytes fed after INIT
(R86, R132). -/
theorem execAll_machash (b0 b1 b2 b3 b4 b5 : Byte) (s : State) :
    execAll (expandPseudo (.machash b0 b1 b2 b3 b4 b5)) s =
      .next { s with
        crc := crcFeed 0xFFFFFFFF [b0, b1, b2, b3, b4, b5], cnt := 6
        res := crcBytes [b0, b1, b2, b3, b4, b5]
        refl := reflect32 (crcBytes [b0, b1, b2, b3, b4, b5])
        idx := hashIndex [b0, b1, b2, b3, b4, b5]
        data := b0 ++ b1 ++ b4 ++ b5
        rsp := success ((hashIndex [b0, b1, b2, b3, b4, b5]).setWidth 32) } := by
  have hcnt : satInc^[6] (0 : Word) = 6 := by decide
  rw [expandPseudo, execAll_cons_of_next (exec_init s),
    execAll_append_of_next (execAll_feed6Commands ..)]
  simp only [hcnt]
  rw [execAll_cons_of_next (exec_hashmac_of_cnt rfl), execAll, hashIndex]
  rfl

/-- Settles O42, from the state `execAll_machash` gives. -/
theorem machashHashesSixBytes : Obligations.MachashHashesSixBytes := by
  intro s b0 b1 b2 b3 b4 b5
  refine ⟨_, execAll_machash .., rfl, rfl, rfl, rfl, ?_, rfl, rfl, rfl⟩
  rw [crcBytes, BitVec.xor_assoc, BitVec.xor_self, BitVec.xor_zero]

end Sys2Proof.Machine

/-! Reflection (40_reflect): RFL, its law of inversion, and the five-stage swap network. -/

namespace Sys2Proof.Machine

/-! ## The reflection of R100 -/

/-- A bit of a reflected word, inside the word (R100). -/
theorem getLsbD_reflect32_of_lt (x : Word) {i : Nat} (hi : i < 32) :
    (reflect32 x).getLsbD i = x.getLsbD (31 - i) := by
  rw [getLsbD_reflect32, decide_eq_true hi, Bool.true_and]

/-- Reflection is its own inverse (R100). -/
theorem reflect32_reflect32 (x : Word) : reflect32 (reflect32 x) = x := by
  refine BitVec.eq_of_getLsbD_eq fun i hi => ?_
  calc (reflect32 (reflect32 x)).getLsbD i
      = (reflect32 x).getLsbD (31 - i) := getLsbD_reflect32_of_lt _ hi
    _ = x.getLsbD (31 - (31 - i)) := getLsbD_reflect32_of_lt _ (by omega)
    _ = x.getLsbD i := by rw [Nat.sub_sub_self (by omega)]

/-- Settles O36, by the bit law of reflection and `reflect32_reflect32`. -/
theorem reflectIsInvolution : Obligations.ReflectIsInvolution := fun x =>
  ⟨reflect32_reflect32 x, fun _ => getLsbD_reflect32_of_lt x⟩

/-- Settles O17: the word RFL writes is the reflection of DATA. -/
theorem rflReversesData : Obligations.RflReversesData :=
  ⟨rfl, fun s => ⟨reflect32 s.data, fun _ => getLsbD_reflect32_of_lt s.data, rfl⟩⟩

/-! ## The network of R101

A stage moves every bit to the number that differs in one binary digit; the five stages together
change all five digits, which takes bit `i` to bit `31 - i`. -/

/-- `mask` selects the lower bit of each pair of bits `g` apart: the partner of a selected bit is `g`
above it, that of any other bit is `g` below it, and one of the two is selected. -/
def SelectsLower (g : Nat) (mask : Word) : Prop :=
  ∀ i < 32, (i ^^^ g = if mask.getLsbD i then i + g else i - g) ∧
    (decide (g ≤ i) && mask.getLsbD (i - g)) = !mask.getLsbD i

/-- One stage moves each bit to its partner's place. -/
theorem getLsbD_swapGroups {g : Nat} {mask : Word} (hmask : SelectsLower g mask) (x : Word) {i : Nat}
    (hi : i < 32) : (swapGroups g mask x).getLsbD i = x.getLsbD (i ^^^ g) := by
  obtain ⟨hpartner, hother⟩ := hmask i hi
  calc (swapGroups g mask x).getLsbD i
      = (x.getLsbD (i + g) && mask.getLsbD i ||
          x.getLsbD (i - g) && (decide (g ≤ i) && mask.getLsbD (i - g))) := by
        simp only [swapGroups, BitVec.getLsbD_or, BitVec.getLsbD_and, BitVec.getLsbD_ushiftRight,
          BitVec.getLsbD_shiftLeft, hi, decide_true, Bool.true_and, ← decide_not, Nat.not_lt,
          Nat.add_comm g i, Bool.and_left_comm]
    _ = (x.getLsbD (i + g) && mask.getLsbD i || x.getLsbD (i - g) && !mask.getLsbD i) := by
        rw [hother]
    _ = x.getLsbD (i ^^^ g) := by
        rw [hpartner]
        cases mask.getLsbD i with
        | true => simp
        | false => simp

/-- The masks of R101 select the lower bit of each pair of their stage. -/
theorem selectsLower_masks :
    SelectsLower 1 0x55555555 ∧ SelectsLower 2 0x33333333 ∧ SelectsLower 4 0x0F0F0F0F ∧
      SelectsLower 8 0x00FF00FF ∧ SelectsLower 16 0x0000FFFF := by
  unfold SelectsLower
  decide

/-- Changing the five binary digits of a bit's number in turn. -/
theorem xor_digits_eq_sub {i : Nat} (hi : i < 32) : i ^^^ 16 ^^^ 8 ^^^ 4 ^^^ 2 ^^^ 1 = 31 - i := by
  revert i
  decide

/-- The network reverses the bits (R101). -/
theorem getLsbD_reflectNetwork (x : Word) {i : Nat} (hi : i < 32) :
    (reflectNetwork x).getLsbD i = x.getLsbD (31 - i) := by
  obtain ⟨h1, h2, h4, h8, h16⟩ := selectsLower_masks
  have hlt {i g : Nat} (hi : i < 2 ^ 5) (hg : g < 2 ^ 5) : i ^^^ g < 32 := Nat.xor_lt_two_pow hi hg
  have hi16 := hlt hi (g := 16) (by decide)
  have hi8 := hlt hi16 (g := 8) (by decide)
  have hi4 := hlt hi8 (g := 4) (by decide)
  have hi2 := hlt hi4 (g := 2) (by decide)
  rw [reflectNetwork, getLsbD_swapGroups h16 _ hi, getLsbD_swapGroups h8 _ hi16,
    getLsbD_swapGroups h4 _ hi8, getLsbD_swapGroups h2 _ hi4, getLsbD_swapGroups h1 _ hi2,
    xor_digits_eq_sub hi]

/-- Settles O37: both words have the same bits. -/
theorem reflectNetworkAgrees : Obligations.ReflectNetworkAgrees := fun x =>
  BitVec.eq_of_getLsbD_eq fun _ hi =>
    (getLsbD_reflectNetwork x hi).trans (getLsbD_reflect32_of_lt x hi).symm

end Sys2Proof.Machine

/-! The CRC generator (41_crc): its step function, the five commands that drive it, and how a sequence
is fed, saved and resumed. -/

namespace Sys2Proof.Machine

open Sys2Proof.Safety

/-! ## Rounds and steps (R110, R117) -/

/-- Rounds are one round iterated. -/
theorem crcRounds_eq_iterate (n : Nat) (c : Word) : crcRounds n c = crcRound^[n] c := by
  induction n generalizing c with
  | zero => rfl
  | succ n ih => exact ih (crcRound c)

/-- The mask 1 tests bit 0. -/
theorem and_one_eq_one_iff (x : Word) : x &&& 1 = 1 ↔ x.getLsbD 0 = true := by
  rw [BitVec.ofNat_eq_ofNat, BitVec.and_one_eq_setWidth_ofBool_getLsbD]
  cases x.getLsbD 0 with
  | true => decide
  | false => decide

/-- The round as R110 writes it, with the bit shifted out tested by a mask. -/
theorem crcRound_eq_ite_and_one :
    crcRound = fun (x : Word) => if x &&& 1 = 1 then (x >>> 1) ^^^ 0xEDB88320 else x >>> 1 := by
  funext x
  simp only [and_one_eq_one_iff, crcRound, crcPoly]

/-- Settles O18: the model's round is R110's, and eight rounds are eight iterations. -/
theorem crcStepIsEightRounds : Obligations.CrcStepIsEightRounds := by
  intro c b
  rw [← crcRound_eq_ite_and_one, crcStep, crcRounds_eq_iterate]

/-- A round moves every bit down by one and adds the polynomial if bit 0 was set. -/
theorem getLsbD_crcRound (c : Word) (i : Nat) :
    (crcRound c).getLsbD i = (c.getLsbD (i + 1) ^^ (c.getLsbD 0 && crcPoly.getLsbD i)) := by
  rw [crcRound, Nat.add_comm i]
  cases c.getLsbD 0 with
  | true => simp
  | false => simp

/-- The polynomial's top bit is set, so a round's top bit is the bit it shifted out. -/
theorem getLsbD_31_crcRound (c : Word) : (crcRound c).getLsbD 31 = c.getLsbD 0 := by
  have hpoly : crcPoly.getLsbD 31 = true := by decide
  rw [getLsbD_crcRound, BitVec.getLsbD_of_ge c 32 (by decide), hpoly, Bool.and_true, Bool.false_xor]

/-- A round loses nothing: its top bit tells bit 0, and with that its other bits tell the bits above
(R117). -/
theorem crcRound_injective : Function.Injective crcRound := by
  intro a b h
  have hlow : a.getLsbD 0 = b.getLsbD 0 := by
    rw [← getLsbD_31_crcRound, h, getLsbD_31_crcRound]
  refine BitVec.eq_of_getLsbD_eq fun i _ => ?_
  cases i with
  | zero => exact hlow
  | succ i =>
    have hbit := congrArg (BitVec.getLsbD · i) h
    simp only [getLsbD_crcRound, hlow] at hbit
    exact Bool.xor_left_inj.mp hbit

/-- Nor do any number of rounds. -/
theorem crcRounds_injective (n : Nat) : Function.Injective (crcRounds n) := by
  rw [funext (crcRounds_eq_iterate n)]
  exact crcRound_injective.iterate n

/-- For each byte, one step is injective in the register (R117). -/
theorem crcStep_injective (b : Byte) : Function.Injective fun c : Word => crcStep c b := fun _ _ h =>
  (BitVec.xor_left_inj _).mp (crcRounds_injective 8 h)

/-- In the XOR of two steps with one byte, the byte cancels (R117). -/
theorem crcStep_xor_crcStep (c₁ c₂ : Word) (b : Byte) :
    crcStep c₁ b ^^^ crcStep c₂ b = crcStep (c₁ ^^^ c₂) 0 :=
  calc crcStep c₁ b ^^^ crcStep c₂ b
    _ = crcRounds 8 (c₁ ^^^ b.setWidth 32 ^^^ (c₂ ^^^ b.setWidth 32)) := (crcRounds_xor 8 _ _).symm
    _ = crcRounds 8 (c₁ ^^^ c₂ ^^^ (b.setWidth 32 ^^^ b.setWidth 32)) := congrArg _ (by ac_rfl)
    _ = crcStep (c₁ ^^^ c₂) 0 := by rw [BitVec.xor_self]; rfl

/-- Settles O38. There are finitely many registers, so the injective step is a bijection. -/
theorem crcStepLinearBijective : Obligations.CrcStepLinearBijective := by
  have : Finite Word := Finite.of_injective BitVec.toFin fun _ _ => BitVec.eq_of_toFin_eq
  exact ⟨crcStep_xor_crcStep, fun b => Finite.injective_iff_bijective.mp (crcStep_injective b)⟩

/-! ## The commands (R112 to R116) -/

/-- BYTE feeds its immediate and answers the new CRC (R113). -/
theorem exec_byte (b : Byte) (s : State) :
    exec (.byte b) s = .next { s with
      crc := crcStep s.crc b, cnt := satInc s.cnt, rsp := success (crcStep s.crc b) } := rfl

/-- FINAL puts the finalised CRC in RES and answers it (R116). -/
theorem exec_final (s : State) :
    exec .final s = .next { s with
      res := s.crc ^^^ 0xFFFFFFFF, rsp := success (s.crc ^^^ 0xFFFFFFFF) } := rfl

/-- A word of format B is its opcode's word with the immediate in the low byte. -/
theorem wordB_eq_or (op imm8 : Byte) : wordB op imm8 = wordB op 0 ||| imm8.setWidth 32 :=
  have himm : imm8.setWidth 32 = 0#24 ++ imm8 := BitVec.setWidth_eq_append (by decide)
  calc wordB op imm8
    _ = (op ++ 0#16 ||| 0#24) ++ (0#8 ||| imm8) := by rw [BitVec.or_zero, BitVec.zero_or]; rfl
    _ = wordB op 0 ||| imm8.setWidth 32 := by rw [himm, ← BitVec.or_append]; rfl

/-- BYTE commands in a row feed their immediates in order; the last one's response stays (R113). -/
theorem execAll_byteCommands (b : Byte) (bs : List Byte) (s : State) :
    execAll ((b :: bs).map .byte) s = .next { s with
      crc := crcFeed s.crc (b :: bs), cnt := satInc^[(b :: bs).length] s.cnt
      rsp := success (crcFeed s.crc (b :: bs)) } := by
  induction bs generalizing b s with
  | nil => rfl
  | cons b' bs ih =>
    rw [List.map_cons, execAll_cons_of_next (exec_byte b s), ih]
    rfl

/-- Settles O19: the state INIT leaves is `exec_init`'s. -/
theorem initStartsSequence : Obligations.InitStartsSequence := ⟨rfl, exec_init⟩

/-- Settles O20: the state BYTE leaves is `exec_byte`'s. -/
theorem byteAdvancesCrc : Obligations.ByteAdvancesCrc := ⟨wordB_eq_or 0x21, exec_byte⟩

/-- Settles O21: FEEDH and FEEDW leave the state of the BYTE commands over their bytes. -/
theorem feedsAreByteCommands : Obligations.FeedsAreByteCommands :=
  ⟨rfl, rfl, fun s =>
    ⟨⟨_, exec_feedh s, execAll_byteCommands _ [_] s, rfl, rfl, rfl⟩,
      ⟨_, exec_feedw s, execAll_byteCommands _ [_, _, _] s, rfl, rfl, rfl⟩⟩⟩

/-- Settles O22: the XOR with all ones is the complement. -/
theorem finalInvertsCrc : Obligations.FinalInvertsCrc :=
  ⟨rfl, fun s => by rw [exec_final, ← BitVec.xor_allOnes]; rfl⟩

/-! ## A sequence through any mix of feeds (R118) -/

/-- Commands that feed exactly `bytes` advance CRC by those bytes and CNT once for each. -/
theorem fed_crc_cnt {s u : State} {bytes : List Byte} (h : Fed s bytes u) :
    u.crc = crcFeed s.crc bytes ∧ u.cnt = satInc^[bytes.length] s.cnt := by
  induction h with
  | done s => exact ⟨rfl, rfl⟩
  | byte b h _ ih => cases (exec_byte b _).symm.trans h; exact ih
  | feedh h _ ih => cases (exec_feedh _).symm.trans h; exact ih
  | feedw h _ ih => cases (exec_feedw _).symm.trans h; exact ih
  | ldlo v h _ ih => cases (exec_ldlo v _).symm.trans h; exact ih
  | ldhi v h _ ih => cases (exec_ldhi v _).symm.trans h; exact ih

/-- Settles O39, from what the feeds do to CRC and CNT (`fed_crc_cnt`). -/
theorem fedBytesGiveCrc : Obligations.FedBytesGiveCrc := by
  intro s t u bytes hinit hfed
  cases (exec_init s).symm.trans hinit
  obtain ⟨hcrc, hcnt⟩ :
    u.crc = crcFeed 0xFFFFFFFF bytes ∧ u.cnt = satInc^[bytes.length] 0 := fed_crc_cnt hfed
  have hfinal : u.crc ^^^ 0xFFFFFFFF = crcBytes bytes := congrArg (· ^^^ 0xFFFFFFFF) hcrc
  refine ⟨?_, ?_, _, exec_final u, hfinal⟩
  · rw [← hfinal, BitVec.xor_assoc, BitVec.xor_self, BitVec.xor_zero]
  · rw [hcnt, satInc_iterate_toNat, BitVec.ofNat_eq_ofNat, BitVec.toNat_zero, Nat.zero_add]

/-! ## A sequence saved and resumed (R119) -/

/-- WR 0 loads CRC from DATA (R184). -/
theorem exec_wr_crc (s : State) :
    exec (.wr 0) s = .next { s with crc := s.data, rsp := success s.data } := rfl

/-- WR 1 loads CNT from DATA (R184). -/
theorem exec_wr_cnt (s : State) :
    exec (.wr 1) s = .next { s with cnt := s.data, rsp := success s.data } := rfl

/-- LDI and WR 0 put a word in CRC (R86). -/
theorem execAll_ldi_wr_crc (c : Word) (s : State) :
    execAll (expandPseudo (.ldi c) ++ [.wr 0]) s =
      .next { s with crc := c, data := c, rsp := success c } := by
  rw [expandPseudo, execAll_append_of_next (execAll_ldiCommands c s),
    execAll_cons_of_next (exec_wr_crc _), execAll]

/-- LDI and WR 1 put a word in CNT (R86). -/
theorem execAll_ldi_wr_cnt (n : Word) (s : State) :
    execAll (expandPseudo (.ldi n) ++ [.wr 1]) s =
      .next { s with cnt := n, data := n, rsp := success n } := by
  rw [expandPseudo, execAll_append_of_next (execAll_ldiCommands n s),
    execAll_cons_of_next (exec_wr_cnt _), execAll]

/-- Settles O40: each pair of LDI and WR sets its own register and keeps the other. -/
theorem savedCrcRestored : Obligations.SavedCrcRestored := by
  intro s c n
  constructor
  · rw [List.append_assoc, execAll_append_of_next (execAll_ldi_wr_crc c s), execAll_ldi_wr_cnt]
  · rw [List.append_assoc, execAll_append_of_next (execAll_ldi_wr_cnt n s), execAll_ldi_wr_crc]

end Sys2Proof.Machine

/-! The hash extractor (42_hash): HASH and HASHMAC, and the index read off the CRC. -/

namespace Sys2Proof.Machine

open Sys2Proof.Safety

/-! ## The top six bits (R130, R131) -/

/-- A bit of the top six is a bit of the word. -/
theorem getLsbD_topSix (r : Word) {m : Nat} (hm : m < 6) :
    (topSix r).getLsbD m = r.getLsbD (26 + m) := by
  rw [topSix, BitVec.getLsbD_extractLsb', decide_eq_true hm, Bool.true_and]

/-- The top six bits as a word are R131's shift and mask: masking with 63 is the remainder by 64. -/
theorem setWidth_topSix (r : Word) : (topSix r).setWidth 32 = (r >>> 26) &&& 0x3F := by
  apply BitVec.eq_of_toNat_eq
  rw [BitVec.toNat_setWidth_of_le (by decide), topSix, BitVec.extractLsb'_toNat, BitVec.toNat_and,
    BitVec.toNat_ushiftRight]
  exact (Nat.and_two_pow_sub_one_eq_mod _ 6).symm

/-- R131's shift and mask, cut back to an index, are the top six bits. -/
theorem topSix_eq_setWidth (r : Word) : topSix r = ((r >>> 26) &&& 0x3F).setWidth 6 := by
  rw [← setWidth_topSix, BitVec.setWidth_setWidth_of_le _ (by decide), BitVec.setWidth_eq]

/-! ## The commands (R131, R132) -/

/-- The hash datapath and its answer write RES, REFL, IDX and the response (R131). -/
theorem extractHash_respond (s : State) :
    s.extractHash.respond (s.extractHash.idx.setWidth 32) = { s with
      res := s.crc ^^^ 0xFFFFFFFF
      refl := reflect32 (s.crc ^^^ 0xFFFFFFFF)
      idx := ((reflect32 (s.crc ^^^ 0xFFFFFFFF) >>> 26) &&& 0x3F).setWidth 6
      rsp := success ((reflect32 (s.crc ^^^ 0xFFFFFFFF) >>> 26) &&& 0x3F) } := by
  rw [← topSix_eq_setWidth, ← setWidth_topSix]
  rfl

/-- HASH is the hash datapath (R131). -/
theorem exec_hash (s : State) :
    exec .hash s = .next (s.extractHash.respond (s.extractHash.idx.setWidth 32)) := rfl

/-- HASHMAC on any other count raises InvalidInput (R132). -/
theorem exec_hashmac_of_cnt_ne {s : State} (h : s.cnt ≠ 6) :
    exec .hashmac s = .next (s.raise .invalidInput) := by
  rw [exec, execHashmac, if_neg h]

/-- Settles O23: both commands leave the state `extractHash_respond` gives, HASHMAC only on CNT = 6. -/
theorem hashCommandsExtractIndex : Obligations.HashCommandsExtractIndex :=
  ⟨rfl, rfl, fun s =>
    ⟨_, extractHash_respond s, exec_hash s, exec_hashmac_of_cnt, exec_hashmac_of_cnt_ne⟩⟩

/-! ## The index as bits of the CRC (R134) -/

/-- Settles O41: bit `m` of the index is bit `26 + m` of the reflected CRC. -/
theorem hashIndexIsReversedLowBits : Obligations.HashIndexIsReversedLowBits := by
  intro bytes m hm
  calc (hashIndex bytes).getLsbD m
      = (reflect32 (crcBytes bytes)).getLsbD (26 + m) := by rw [hashIndex, getLsbD_topSix _ hm]
    _ = (crcBytes bytes).getLsbD (31 - (26 + m)) := getLsbD_reflect32_of_lt _ (by omega)
    _ = (crcBytes bytes).getLsbD (5 - m) := by rw [Nat.sub_add_eq]

end Sys2Proof.Machine

/-! The hash-to-register-bit mapper (43_mapper): HTH and HTL as one 64-bit bitmap, in which index `i`
is bit `i` (R140), the four commands on it, and the set of indices it holds. -/

namespace Sys2Proof.Machine

open Sys2Proof.Safety

/-! ## HTH and HTL as one bitmap (R140, R145) -/

/-- A shifted one is the word with only that bit. -/
theorem getLsbD_one_shiftLeft (w n j : Nat) :
    (1#w <<< n).getLsbD j = (decide (n < w) && decide (n = j)) := by
  rw [← BitVec.twoPow_eq, BitVec.getLsbD_twoPow]

/-- The pair of words of an index is its bit of the 64-bit bitmap: an index below 32 is a bit of the
low word, any other a bit of the high word. -/
theorem onehot_append (i : Index) : (onehot i).1 ++ (onehot i).2 = 1#64 <<< i.toNat := by
  refine BitVec.eq_of_getLsbD_eq fun j _ => ?_
  rcases Nat.lt_or_ge i.toNat 32 with hi | hi
  · simp only [onehot_low hi, BitVec.getLsbD_append, getLsbD_one_shiftLeft, BitVec.ofNat_eq_ofNat,
      BitVec.getLsbD_zero]
    grind
  · simp only [onehot_high hi, BitVec.getLsbD_append, getLsbD_one_shiftLeft, BitVec.ofNat_eq_ofNat,
      BitVec.getLsbD_zero]
    grind

/-- ORing an index into HTH and HTL sets its bit of the bitmap. -/
theorem orIndex_append (s : State) (i : Index) :
    (s.orIndex i).hth ++ (s.orIndex i).htl = (s.hth ++ s.htl) ||| 1#64 <<< i.toNat := by
  rw [orIndex_hth, orIndex_htl, ← BitVec.or_append, onehot_append]

/-- Bit 5 of an index tells whether it is one of 32..63. -/
theorem getLsbD_five_eq_decide (j : Index) : j.getLsbD 5 = decide (32 ≤ j.toNat) :=
  (BitVec.msb_eq_getLsbD_last j).symm.trans (BitVec.msb_eq_decide j)

/-- An index is present exactly when its bit of the bitmap is 1. -/
theorem indexPresent_eq_getLsbD_append (hth htl : Word) (j : Index) :
    indexPresent hth htl j = (hth ++ htl).getLsbD j.toNat := by
  have hlow : (j.extractLsb' 0 5).toNat = j.toNat % 32 := BitVec.extractLsb'_toNat 0 5 j
  rw [indexPresent, getLsbD_five_eq_decide, hlow, BitVec.getLsbD_append]
  rcases Nat.lt_or_ge j.toNat 32 with hj | hj
  · rw [if_neg (by simpa using hj), if_pos hj, Nat.mod_eq_of_lt hj]
  · have hmod : j.toNat % 32 = j.toNat - 32 := by omega
    rw [if_pos (by simpa using hj), if_neg (Nat.not_lt.mpr hj), hmod]

/-- The bitmap of one index holds that index and no other. -/
theorem indexPresent_onehot (i j : Index) :
    indexPresent (onehot i).1 (onehot i).2 j = decide (j = i) := by
  have hi : i.toNat < 64 := i.isLt
  rw [indexPresent_eq_getLsbD_append, onehot_append, getLsbD_one_shiftLeft, decide_eq_true hi,
    Bool.true_and, decide_eq_decide, BitVec.toNat_inj, eq_comm]

/-- The OR of two bitmaps holds the indices of both. -/
theorem indexPresent_or (h₁ l₁ h₂ l₂ : Word) (j : Index) :
    indexPresent (h₁ ||| h₂) (l₁ ||| l₂) j = (indexPresent h₁ l₁ j || indexPresent h₂ l₂ j) := by
  simp only [indexPresent_eq_getLsbD_append, ← BitVec.or_append, BitVec.getLsbD_or]

/-- The empty bitmap holds no index. -/
theorem indexPresent_zero (j : Index) : indexPresent 0 0 j = false := by
  rw [indexPresent_eq_getLsbD_append]
  exact BitVec.getLsbD_zero

/-! ## The commands (R141 to R144) -/

/-- MAPCLR empties the bitmap (R141). -/
theorem exec_mapclr (s : State) :
    exec .mapclr s = .next { s with hth := 0, htl := 0, rsp := success 0 } := rfl

/-- MAPSET makes the bitmap that of IDX (R142). -/
theorem exec_mapset (s : State) :
    exec .mapset s = .next { s with
      hth := (onehot s.idx).1, htl := (onehot s.idx).2, rsp := success 0 } := rfl

/-- MAPOR adds IDX to the bitmap (R143). -/
theorem exec_mapor (s : State) :
    exec .mapor s = .next { s with
      hth := (s.orIndex s.idx).hth, htl := (s.orIndex s.idx).htl, rsp := success 0 } := rfl

/-- MAPORI adds its immediate to the bitmap (R144). -/
theorem exec_mapori (k : Index) (s : State) :
    exec (.mapori k) s = .next { s with
      hth := (s.orIndex k).hth, htl := (s.orIndex k).htl, rsp := success 0 } := rfl

/-- A word of format K is its opcode's word with the index in the low six bits. -/
theorem wordK_eq_or (op : Byte) (k : Index) : wordK op k = wordK op 0 ||| k.setWidth 32 :=
  have hindex : k.setWidth 32 = 0#26 ++ k := BitVec.setWidth_eq_append (by decide)
  calc wordK op k
    _ = (op ++ 0#18 ||| 0#26) ++ (0#6 ||| k) := by rw [BitVec.or_zero, BitVec.zero_or]; rfl
    _ = wordK op 0 ||| k.setWidth 32 := by rw [hindex, ← BitVec.or_append]; rfl

/-- Settles O24: MAPSET's two words are one bit of the bitmap by `onehot_append`. -/
theorem mapClearAndSet : Obligations.MapClearAndSet :=
  ⟨rfl, rfl, exec_mapclr, fun s => ⟨_, _, exec_mapset s, onehot_append s.idx⟩⟩

/-- Settles O25: both commands set one bit of the bitmap by `orIndex_append`. -/
theorem mapOrAddsBit : Obligations.MapOrAddsBit :=
  ⟨rfl, wordK_eq_or 0x43, fun s => ⟨_, _, exec_mapor s, orIndex_append s s.idx⟩,
    fun k s => ⟨_, _, exec_mapori k s, orIndex_append s k⟩⟩

/-! ## A list of indices (R145) -/

/-- MAPORI commands in a row add the indices they name to the bitmap, and write nothing else but the
response. -/
theorem execAll_maporiCommands (ks : List Index) (s : State) :
    ∃ (h l : Word) (r : Option Response),
      execAll (ks.map .mapori) s = .next { s with hth := h, htl := l, rsp := r } ∧
      ∀ j : Index, indexPresent h l j = true ↔ indexPresent s.hth s.htl j = true ∨ j ∈ ks := by
  induction ks generalizing s with
  | nil => exact ⟨s.hth, s.htl, s.rsp, rfl, by simp⟩
  | cons k ks ih =>
    obtain ⟨h, l, r, hrun, hmem⟩ := ih { s with
      hth := (s.orIndex k).hth, htl := (s.orIndex k).htl, rsp := success 0 }
    refine ⟨h, l, r, ?_, fun j => ?_⟩
    · rw [List.map_cons, execAll_cons_of_next (exec_mapori k s), hrun]
    · rw [hmem, orIndex_hth, orIndex_htl, indexPresent_or, indexPresent_onehot, Bool.or_eq_true,
        decide_eq_true_iff, List.mem_cons, or_assoc]

/-- Settles O43: after MAPCLR the bitmap holds no index, so after the MAPORI commands it holds exactly
those of `execAll_maporiCommands`. -/
theorem bitmapIsTheSetOfIndices : Obligations.BitmapIsTheSetOfIndices := by
  refine ⟨indexPresent_onehot, fun s ks => ?_⟩
  obtain ⟨h, l, r, hrun, hmem⟩ := execAll_maporiCommands ks { s with
    hth := 0, htl := 0, rsp := success 0 }
  refine ⟨_, (execAll_cons_of_next (exec_mapclr s) _).trans hrun, fun j => ?_, rfl⟩
  rw [hmem, indexPresent_zero, Bool.false_eq_true, false_or]

end Sys2Proof.Machine

/-! The vector verifier (44_verify): what VERIFY computes from any table of three vectors (R150), and
from VROM (R151). -/

namespace Sys2Proof.Machine

open Sys2Proof.Safety

/-! ## Any table (R150) -/

/-- A vector matches when its sequence hashes to its expected index. -/
theorem vectorMatches_iff (v : TestVector) :
    vectorMatches v = true ↔ hashIndex v.bytes.toList = v.expected := beq_iff_eq

/-- M bit `j` says whether vector `j` matches. -/
theorem getLsbD_verifyTable_match (rom : Fin 3 → TestVector) (j : Fin 3) :
    (vstatWord (verifyTable rom)).getLsbD (18 + j.val) = vectorMatches (rom j) := by
  obtain ⟨-, -, -, hm0, hm1, hm2, -⟩ := vstatWord_fields (verifyTable rom)
  match j with
  | 0 => exact hm0
  | 1 => exact hm1
  | 2 => exact hm2

/-- Field VIDX `j` is the index computed for vector `j`. -/
theorem extractLsb'_verifyTable_index (rom : Fin 3 → TestVector) (j : Fin 3) :
    (vstatWord (verifyTable rom)).extractLsb' (6 * j.val) 6 = hashIndex (rom j).bytes.toList := by
  obtain ⟨hidx0, hidx1, hidx2, -⟩ := vstatWord_fields (verifyTable rom)
  match j with
  | 0 => exact hidx0
  | 1 => exact hidx1
  | 2 => exact hidx2

/-- ALLPASS says whether every vector matches. -/
theorem verifyTable_allpass_iff (rom : Fin 3 → TestVector) :
    (verifyTable rom).allpass = true ↔ ∀ i : Fin 3, vectorMatches (rom i) = true := by
  simp [verifyTable, assembleVstat, Fin.forall_fin_succ, and_assoc]

/-! ## VROM (R151) -/

/-- A VSTAT is determined by the word RD answers for it, since each field stands in that word. -/
theorem vstatWord_injective : Function.Injective vstatWord := by
  intro v w h
  have hv := vstatWord_fields v
  rw [h] at hv
  obtain ⟨hv0, hv1, hv2, hv3, hv4, hv5, hv6, hv7, -⟩ := hv
  obtain ⟨hw0, hw1, hw2, hw3, hw4, hw5, hw6, hw7, -⟩ := vstatWord_fields w
  cases v
  cases w
  rw [Vstat.mk.injEq]
  exact ⟨hv0.symm.trans hw0, hv1.symm.trans hw1, hv2.symm.trans hw2, hv3.symm.trans hw3,
    hv4.symm.trans hw4, hv5.symm.trans hw5, hv6.symm.trans hw6, hv7.symm.trans hw7⟩

/-- VERIFY's result on VROM, field by field. -/
theorem verifyTable_romRead :
    verifyTable romRead =
      { vidx0 := 44, vidx1 := 7, vidx2 := 41, m0 := true, m1 := true, m2 := true,
        allpass := true, vdone := true } :=
  vstatWord_injective (vstatWord_verifyTable_romRead.trans (by decide))

/-- VERIFY puts its result on VROM in VSTAT and answers it (R150, R151). -/
theorem exec_verify (s : State) :
    exec .verify s = .next { s with vstat := verifyTable romRead, rsp := success 0x007E91EC } := by
  rw [← vstatWord_verifyTable_romRead]
  rfl

/-- Settles O26: VROM's result by `exec_verify` and `verifyTable_romRead`, and any table's from where
the fields of VSTAT stand. -/
theorem verifyWritesKnownStatus : Obligations.VerifyWritesKnownStatus := by
  refine ⟨rfl, fun s => ⟨verifyTable romRead, exec_verify s, vstatWord_verifyTable_romRead,
    verifyTable_romRead, rfl, fun rom j => ?_⟩⟩
  obtain ⟨-, -, -, -, -, -, hallpass, hvdone, hrest⟩ := vstatWord_fields (verifyTable rom)
  refine ⟨?_, extractLsb'_verifyTable_index rom j, ?_, hvdone, hrest⟩
  · rw [getLsbD_verifyTable_match, vectorMatches_iff]
  · simp only [hallpass, verifyTable_allpass_iff, vectorMatches_iff]

end Sys2Proof.Machine

/-! The collision analyzer (45_collision): the commands that read the map, the enumeration and its
buckets, their uniform size, the memories CRUN leaves, and R160's loops. -/

namespace Sys2Proof.Machine

open Sys2Proof.Safety

/-! ## The commands that read (R163 to R166) -/

/-- A word of format I is its opcode's word with the immediate in the low half. -/
theorem wordI_eq_or (op : Byte) (imm16 : Half) : wordI op imm16 = wordI op 0 ||| imm16.setWidth 32 :=
  calc wordI op imm16
    _ = (op ++ 0#8 ||| 0#16) ++ (0#16 ||| imm16) := by rw [BitVec.or_zero, BitVec.zero_or]; rfl
    _ = wordI op 0 ||| imm16.setWidth 32 := by
      rw [setWidth_half_eq_append, ← BitVec.or_append]; rfl

/-- CCNT answers its entry while CV is 1 (R163). -/
theorem exec_ccnt_of_cv (k : Index) {s : State} (hcv : s.status.cv = true) :
    exec (.ccnt k) s = .next { s with rsp := success ((cntRead s k).setWidth 32) } :=
  if_pos hcv

/-- CBASE answers its base while CV is 1 (R164). -/
theorem exec_cbase_of_cv (k : Index) {s : State} (hcv : s.status.cv = true) :
    exec (.cbase k) s = .next { s with rsp := success (BitVec.ofNat 32 (bucketBase s k)) } :=
  if_pos hcv

/-- CLIST answers its pair while CV is 1 (R165). -/
theorem exec_clist_of_cv (n : Half) {s : State} (hcv : s.status.cv = true) :
    exec (.clist n) s = .next { s with rsp := success ((listRead s n).setWidth 32) } :=
  if_pos hcv

/-- Settles O28: one lemma per command and value of CV. -/
theorem mapReadsAnswer : Obligations.MapReadsAnswer :=
  ⟨fun k => ⟨wordK_eq_or 0x61 k, wordK_eq_or 0x62 k⟩, wordI_eq_or 0x63, fun _ k n =>
    ⟨fun hcv => ⟨exec_ccnt_of_cv k hcv, exec_cbase_of_cv k hcv, exec_clist_of_cv n hcv⟩,
     fun hcv => ⟨exec_ccnt_notReady k hcv, exec_cbase_notReady k hcv, exec_clist_notReady n hcv⟩⟩⟩

/-- CPROBE answers the bucket of its pair (R166). -/
theorem exec_cprobe (n : Half) (s : State) :
    exec (.cprobe n) s = .next { s with rsp := success ((pairBucket s.pfx n).setWidth 32) } := rfl

/-- Settles O29: the six bytes are those `pairBucket` hashes. -/
theorem cprobeAnswersBucket : Obligations.CprobeAnswersBucket :=
  ⟨wordI_eq_or 0x64, fun s n => exec_cprobe n s⟩

/-! ## The enumeration (R160) -/

/-- `m` rows of `n` numbers, each going on where the one before ends, are the numbers below `n * m`. -/
theorem flatMap_range_rows {α : Type} (f : Nat → α) (n m : Nat) :
    ((List.range m).flatMap fun d => (List.range n).map fun p => f (n * d + p)) =
      (List.range (n * m)).map f := by
  induction m with
  | zero => rfl
  | succ m ih =>
    rw [List.range_succ, List.flatMap_append, ih, List.flatMap_singleton, Nat.mul_succ,
      List.range_add, List.map_append, List.map_map]
    rfl

/-- A pair packed as a number: d counts 256s, p counts ones (R39). -/
theorem packPair_ofNat {d p : Nat} (hp : p < 256) :
    packPair (BitVec.ofNat 8 d) (BitVec.ofNat 8 p) = BitVec.ofNat 16 (256 * d + p) := by
  apply BitVec.eq_of_toNat_eq
  rw [packPair_eq_append, toNat_append_eq_add, BitVec.toNat_ofNat, BitVec.toNat_ofNat,
    BitVec.toNat_ofNat]
  omega

/-- The enumeration lists the packed pairs in ascending order. -/
theorem allPairs_eq_map_range : allPairs = (List.range 65536).map (BitVec.ofNat 16) := by
  rw [← flatMap_range_rows (BitVec.ofNat 16) 256 256, allPairs]
  exact List.flatMap_congr fun d _ => List.map_congr_left fun p hp =>
    packPair_ofNat (List.mem_range.mp hp)

/-- Every pair is enumerated. -/
theorem mem_allPairs (n : Half) : n ∈ allPairs := by
  rw [allPairs_eq_map_range]
  exact List.mem_map.mpr ⟨n.toNat, List.mem_range.mpr n.isLt,
    (BitVec.ofNat_toNat 16 n).trans (BitVec.setWidth_eq n)⟩

/-- No pair is enumerated twice. -/
theorem nodup_allPairs : allPairs.Nodup := by
  rw [allPairs_eq_map_range]
  refine List.Nodup.map_on (fun i hi j hj h => ?_) List.nodup_range
  rw [List.mem_range] at hi hj
  simpa [BitVec.toNat_ofNat, Nat.mod_eq_of_lt hi, Nat.mod_eq_of_lt hj] using congrArg BitVec.toNat h

/-- There are 65536 pairs. -/
theorem length_allPairs : allPairs.length = 65536 := by
  rw [allPairs_eq_map_range, List.length_map, List.length_range]

/-- Settles O44: the enumeration is `allPairs_eq_map_range`, and a packed pair is its two bytes. -/
theorem enumerationAscends : Obligations.EnumerationAscends := by
  refine ⟨length_allPairs, fun n hn => ?_, fun d p => ?_⟩
  · rw [allPairs_eq_map_range, List.getElem?_map, List.getElem?_range hn, Option.map_some]
  · rw [packPair_eq_append]
    exact ⟨BitVec.extractLsb'_append_eq_left, BitVec.extractLsb'_append_eq_right⟩

/-! ## The buckets as a partition (R167) -/

/-- A pair is listed in the bucket it hashes to. -/
theorem mem_bucketList (pfx : Word) (n : Half) (k : Index) :
    n ∈ bucketList pfx k ↔ pairBucket pfx n = k := by
  rw [bucketList, List.mem_filter, beq_iff_eq, and_iff_right (mem_allPairs n)]

/-- R161's list of a bucket is the bucket of the enumeration. -/
theorem bucketOf_enumeration_eq_bucketList (pfx : Word) :
    bucketOf (enumeration pfx) = bucketList pfx :=
  funext (bucketOf_enumeration pfx)

/-- The lists of all buckets together hold every pair once: a pair hashes to one bucket. -/
theorem concatenatedLists_perm_allPairs (pfx : Word) :
    (concatenatedLists (enumeration pfx)).Perm allPairs := by
  rw [concatenatedLists, bucketOf_enumeration_eq_bucketList]
  refine (List.perm_ext_iff_of_nodup (List.nodup_flatMap.mpr ⟨fun k _ => ?_, ?_⟩)
    nodup_allPairs).mpr fun n => ?_
  · exact nodup_allPairs.filter _
  · refine bucketNumbers_nodup.imp fun {j k} hjk n hj hk => hjk ?_
    exact ((mem_bucketList pfx n j).mp hj).symm.trans ((mem_bucketList pfx n k).mp hk)
  · exact iff_of_true (List.mem_flatMap.mpr ⟨_, mem_bucketNumbers _, (mem_bucketList pfx n _).mpr rfl⟩)
      (mem_allPairs n)

/-- The lengths of all bucket lists add up to the number of pairs. -/
theorem sum_length_bucketList (pfx : Word) :
    (bucketNumbers.map fun k => (bucketList pfx k).length).sum = 65536 := by
  rw [← length_allPairs, ← (concatenatedLists_perm_allPairs pfx).length_eq, concatenatedLists,
    List.length_flatMap, bucketOf_enumeration_eq_bucketList]

/-- Settles O45, by the permutation of `concatenatedLists_perm_allPairs`. -/
theorem bucketsPartitionPairs : Obligations.BucketsPartitionPairs := fun pfx =>
  ⟨concatenatedLists_perm_allPairs pfx, sum_length_bucketList pfx, mem_bucketList pfx⟩

/-! ## The buckets are uniform (R167)

The hash is linear over GF(2) in its last byte. XORing p with a byte therefore XORs the bucket with an
index that depends on that byte alone, and every index is reached, so such a XOR carries any bucket's
list onto any other's. -/

/-- Reflection is linear over GF(2). -/
theorem reflect32_xor (x y : Word) : reflect32 (x ^^^ y) = reflect32 x ^^^ reflect32 y := by
  refine BitVec.eq_of_getLsbD_eq fun i hi => ?_
  simp only [BitVec.getLsbD_xor, getLsbD_reflect32_of_lt _ hi]

/-- What XORing a byte into the last byte of a sequence XORs into its hash index. -/
def lastByteIndex (b : Byte) : Index := topSix (reflect32 (crcStep 0 b))

/-- A step on a XOR of bytes: the second byte's share is its step from 0. -/
theorem crcStep_xor_byte (c : Word) (a b : Byte) :
    crcStep c (a ^^^ b) = crcStep c a ^^^ crcStep 0 b := by
  simp only [crcStep, ← crcRounds_xor, BitVec.setWidth_xor, BitVec.ofNat_eq_ofNat, BitVec.zero_xor,
    BitVec.xor_assoc]

/-- XORing a byte into the last byte of a sequence XORs `lastByteIndex` into its hash index. -/
theorem hashIndex_append_xor (bytes : List Byte) (a b : Byte) :
    hashIndex (bytes ++ [a ^^^ b]) = hashIndex (bytes ++ [a]) ^^^ lastByteIndex b := by
  have hcrc : crcBytes (bytes ++ [a ^^^ b]) = crcBytes (bytes ++ [a]) ^^^ crcStep 0 b := by
    simp only [crcBytes, crcFeed_append, crcFeed_cons, crcFeed_nil, crcStep_xor_byte]
    ac_rfl
  rw [hashIndex, hashIndex, hcrc, reflect32_xor, topSix, BitVec.extractLsb'_xor]
  rfl

/-- XORing a byte into p XORs `lastByteIndex` into the bucket. -/
theorem pairBucket_xor (pfx : Word) (n : Half) (b : Byte) :
    pairBucket pfx (n ^^^ (0#8 ++ b)) = pairBucket pfx n ^^^ lastByteIndex b := by
  have hd : pairD (n ^^^ (0#8 ++ b)) = pairD n := by
    rw [pairD, BitVec.extractLsb'_xor, BitVec.extractLsb'_append_eq_left, BitVec.xor_zero, pairD]
  have hp : pairP (n ^^^ (0#8 ++ b)) = pairP n ^^^ b := by
    rw [pairP, BitVec.extractLsb'_xor, BitVec.extractLsb'_append_eq_right, pairP]
  rw [pairBucket, hd, hp]
  exact hashIndex_append_xor (prefixBytes pfx ++ [pairD n]) (pairP n) b

/-- Every index is the share of some last byte. -/
theorem exists_lastByteIndex_eq : ∀ k : Index, ∃ b : Byte, lastByteIndex b = k := by
  decide +kernel

/-- XORing a constant into every pair only reorders the enumeration. -/
theorem map_xor_allPairs_perm (m : Half) : (allPairs.map (· ^^^ m)).Perm allPairs := by
  have hinv : Function.Involutive (· ^^^ m) := fun n => by
    change n ^^^ m ^^^ m = n
    rw [BitVec.xor_assoc, BitVec.xor_self, BitVec.xor_zero]
  refine (List.perm_ext_iff_of_nodup (nodup_allPairs.map hinv.injective) nodup_allPairs).mpr
    fun n => ?_
  exact iff_of_true (List.mem_map.mpr ⟨_, mem_allPairs _, hinv n⟩) (mem_allPairs n)

/-- XORing a byte's share into a bucket number leads to a bucket as long. -/
theorem length_bucketList_xor (pfx : Word) (k : Index) (b : Byte) :
    (bucketList pfx (k ^^^ lastByteIndex b)).length = (bucketList pfx k).length := by
  simp only [bucketList, ← List.countP_eq_length_filter]
  rw [← (map_xor_allPairs_perm (0#8 ++ b)).countP_eq, List.countP_map]
  refine List.countP_congr fun n _ => ?_
  rw [Function.comp_apply, beq_iff_eq, beq_iff_eq, pairBucket_xor, BitVec.xor_left_inj]

/-- For one value of PREFIX all bucket lists are equally long. -/
theorem length_bucketList_eq (pfx : Word) (j k : Index) :
    (bucketList pfx j).length = (bucketList pfx k).length := by
  obtain ⟨b, hb⟩ := exists_lastByteIndex_eq (k ^^^ j)
  rw [← length_bucketList_xor pfx k b, hb, ← BitVec.xor_assoc, BitVec.xor_self, BitVec.zero_xor]

/-- There are 64 bucket numbers. -/
theorem length_bucketNumbers : bucketNumbers.length = 64 := rfl

/-- Every bucket holds 1024 pairs: 64 equal lengths add up to 65536. -/
theorem length_bucketList (pfx : Word) (k : Index) : (bucketList pfx k).length = 1024 := by
  have hsum := sum_length_bucketList pfx
  simp only [length_bucketList_eq pfx _ k, List.map_const', List.sum_replicate, smul_eq_mul,
    length_bucketNumbers] at hsum
  omega

/-- So the buckets below `k` hold 1024 times `k` pairs. -/
theorem sum_1024_below (k : Index) :
    ((List.range k.toNat).map fun _ => 1024).sum = 1024 * k.toNat := by
  rw [List.map_const', List.sum_replicate, List.length_range, smul_eq_mul, Nat.mul_comm]

/-! ## Where the pairs of a bucket stand -/

/-- In the concatenation of equally long lists, entry `n` of the `k`-th list stands `n` above the end
of the `k` lists before it. -/
theorem getElem?_flatMap_of_length_eq {ι α : Type} {L : ι → List α} {c : Nat}
    (hL : ∀ i, (L i).length = c) {is : List ι} {k n : Nat} {i : ι} (hi : is[k]? = some i)
    (hn : n < c) : (is.flatMap L)[c * k + n]? = (L i)[n]? := by
  induction is generalizing k with
  | nil => simp at hi
  | cons j is ih =>
    rw [List.flatMap_cons]
    cases k with
    | zero =>
      cases hi
      rw [Nat.mul_zero, Nat.zero_add, List.getElem?_append_left (by rwa [hL])]
    | succ k =>
      rw [List.getElem?_append_right (by rw [hL, Nat.mul_succ]; omega), hL,
        show c * (k + 1) + n - c = c * k + n by rw [Nat.mul_succ]; omega]
      exact ih hi

/-- The bucket numbers in order. -/
theorem getElem?_bucketNumbers (k : Index) : bucketNumbers[k.toNat]? = some k := by
  revert k; decide

/-- Entry `n` of a bucket's list stands `n` above 1024 times the bucket number. -/
theorem getElem?_concatenatedLists (pfx : Word) (k : Index) {n : Nat} (hn : n < 1024) :
    (concatenatedLists (enumeration pfx))[1024 * k.toNat + n]? = (bucketList pfx k)[n]? := by
  rw [concatenatedLists, bucketOf_enumeration_eq_bucketList]
  exact getElem?_flatMap_of_length_eq (length_bucketList pfx) (getElem?_bucketNumbers k) hn

/-- Every index of LISTMEM is among the 1024 of some bucket. -/
theorem exists_block {i : Nat} (hi : i < listmemSize) :
    ∃ k : Index, 1024 * k.toNat ≤ i ∧ i < 1024 * k.toNat + 1024 := by
  rw [listmemSize] at hi
  refine ⟨BitVec.ofNat 6 (i / 1024), ?_⟩
  rw [BitVec.toNat_ofNat]
  omega

/-! ## What a current map reads as (R32, R161) -/

section

variable {s : State} (hmap : MapCurrent s) (hcv : s.status.cv = true)
include hmap hcv

/-- An entry of CNTMEM while the map is current. -/
theorem cntRead_of_mapCurrent (k : Index) : cntRead s k = 1024 := by
  obtain ⟨hcnt, -⟩ := hmap hcv
  rw [cntRead, hcnt, get?_countMemory, bucketOf_enumeration_eq_bucketList, length_bucketList]
  rfl

/-- The base of a bucket while the map is current. -/
theorem bucketBase_of_mapCurrent (k : Index) : bucketBase s k = 1024 * k.toNat := by
  simp only [bucketBase, cntRead_of_mapCurrent hmap hcv]
  exact sum_1024_below k

/-- The entries of LISTMEM from the base of a bucket on while the map is current. -/
theorem listRead_of_mapCurrent (k : Index) {n : Nat} (hn : n < (bucketList s.pfx k).length) :
    listRead s (BitVec.ofNat 16 (1024 * k.toNat + n)) = (bucketList s.pfx k)[n] := by
  obtain ⟨-, hlist⟩ := hmap hcv
  have hn' : n < 1024 := length_bucketList s.pfx k ▸ hn
  have hk : k.toNat < 64 := k.isLt
  rw [listRead, hlist, get?_listMemory, BitVec.toNat_ofNat, Nat.mod_eq_of_lt (by omega),
    getElem?_concatenatedLists s.pfx k hn', List.getElem?_eq_getElem hn, Option.getD_some]

/-- While the map is current, a pair listed among a bucket's 1024 is of that bucket. -/
theorem pairBucket_listRead {n : Half} {k : Index}
    (hk : 1024 * k.toNat ≤ n.toNat ∧ n.toNat < 1024 * k.toNat + 1024) :
    pairBucket s.pfx (listRead s n) = k := by
  obtain ⟨i, hi⟩ := Nat.exists_eq_add_of_le hk.1
  have hlt : i < (bucketList s.pfx k).length := by rw [length_bucketList]; omega
  have hn : n = BitVec.ofNat 16 (1024 * k.toNat + i) := by
    rw [← hi, BitVec.ofNat_toNat, BitVec.setWidth_eq]
  rw [hn, listRead_of_mapCurrent hmap hcv k hlt]
  exact (mem_bucketList s.pfx _ k).mp (List.getElem_mem hlt)

/-- While the map is current, both memories hold the bucket lists as R161 defines them. -/
theorem mapCurrent_entries (k : Index) :
    (cntRead s k).toNat = (bucketList s.pfx k).length ∧
    bucketBase s k = ((List.range k.toNat).map fun j =>
      (bucketList s.pfx (BitVec.ofNat 6 j)).length).sum ∧
    ∀ (n : Nat) (h : n < (bucketList s.pfx k).length),
      bucketBase s k + n < 65536 ∧
      listRead s (BitVec.ofNat 16 (bucketBase s k + n)) = (bucketList s.pfx k)[n] := by
  have hcnt (j : Index) : (cntRead s j).toNat = (bucketList s.pfx j).length := by
    rw [cntRead_of_mapCurrent hmap hcv, length_bucketList]
    rfl
  refine ⟨hcnt k, ?_, fun n h => ?_⟩
  · simp only [bucketBase, hcnt]
  · rw [bucketBase_of_mapCurrent hmap hcv]
    have hk : k.toNat < 64 := k.isLt
    have hn : n < 1024 := length_bucketList s.pfx k ▸ h
    exact ⟨by omega, listRead_of_mapCurrent hmap hcv k h⟩

end

/-- Settles O46, by `length_bucketList`. -/
theorem bucketsAreUniform : Obligations.BucketsAreUniform :=
  ⟨length_bucketList, fun _ k hmap hcv =>
    ⟨cntRead_of_mapCurrent hmap hcv k, bucketBase_of_mapCurrent hmap hcv k⟩⟩

/-- Settles O49: `n` is among the 1024 of exactly one bucket, the one of the pair listed there. -/
theorem probeAgreesWithMap : Obligations.ProbeAgreesWithMap := by
  intro s n k hmap hcv
  rw [bucketBase_of_mapCurrent hmap hcv, cntRead_of_mapCurrent hmap hcv]
  refine ⟨?_, pairBucket_listRead hmap hcv⟩
  rintro rfl
  obtain ⟨j, hj⟩ := exists_block n.isLt
  rwa [pairBucket_listRead hmap hcv hj]

/-- CRUN leaves its two memories, CV and the response (R160). -/
theorem exec_crun (s : State) :
    exec .crun s = .next { s with
      cntmem := countMemory (enumeration s.pfx), listmem := listMemory (enumeration s.pfx)
      status := setMapValid s.status, rsp := success 0x00010000 } := rfl

/-- Settles O27: CRUN leaves a current map, so `mapCurrent_entries` says what its memories hold. -/
theorem crunBuildsCollisionMap : Obligations.CrunBuildsCollisionMap :=
  ⟨rfl, fun s => ⟨_, exec_crun s, rfl, rfl, rfl, mapCurrent_entries (fun _ => ⟨rfl, rfl⟩) rfl⟩⟩

/-! ## R160's loops -/

/-- In a memory with rising indices, an entry is read back exactly where it is listed. -/
theorem get?_eq_some_iff {w : Nat} {m : Memory w} (h : m.Pairwise fun a b => a.1 < b.1) (n : Nat)
    (v : BitVec w) : Memory.get? m n = some v ↔ (n, v) ∈ m := by
  induction m with
  | nil => simp [Memory.get?]
  | cons c m ih =>
    obtain ⟨a, u⟩ := c
    obtain ⟨hlt, hm⟩ := List.pairwise_cons.mp h
    rw [Memory.get?, List.mem_cons, Prod.mk.injEq]
    split
    · next han =>
      have hnot : (n, v) ∉ m := fun hmem => absurd (hlt _ hmem) (by simp [han])
      rw [Option.some.injEq, or_iff_left hnot, and_iff_right han.symm, eq_comm]
    · next han => rw [ih hm, or_iff_right fun h => han h.1.symm]

/-- A memory in canonical form has nothing at an index out of range. -/
theorem get?_eq_none_of_le {w size : Nat} {m : Memory w} (h : Memory.wf size m) {n : Nat}
    (hn : size ≤ n) : Memory.get? m n = none := by
  refine Option.eq_none_iff_forall_ne_some.mpr fun v hv => ?_
  exact absurd (h.2 _ ((get?_eq_some_iff h.1 n v).mp hv)) (Nat.not_lt.mpr hn)

/-- Memories in canonical form are equal when they read the same at every index in range. -/
theorem memory_ext {w size : Nat} {m₁ m₂ : Memory w} (h₁ : Memory.wf size m₁)
    (h₂ : Memory.wf size m₂) (h : ∀ n < size, Memory.get? m₁ n = Memory.get? m₂ n) : m₁ = m₂ := by
  have : Std.Antisymm fun a b : Nat × BitVec w => a.1 < b.1 :=
    ⟨fun _ _ hab hba => absurd hab (Nat.lt_asymm hba)⟩
  have : Std.Irrefl fun a b : Nat × BitVec w => a.1 < b.1 := ⟨fun a => Nat.lt_irrefl a.1⟩
  refine h₁.1.eq_of_mem_iff h₂.1 fun ⟨n, v⟩ => ?_
  rw [← get?_eq_some_iff h₁.1, ← get?_eq_some_iff h₂.1]
  rcases Nat.lt_or_ge n size with hn | hn
  · rw [h n hn]
  · rw [get?_eq_none_of_le h₁ hn, get?_eq_none_of_le h₂ hn]

/-- The bucket of an enumeration one pair longer at its start. -/
theorem bucketOf_cons (e : Half × Index) (pairs : List (Half × Index)) (k : Index) :
    bucketOf (e :: pairs) k = if k = e.2 then e.1 :: bucketOf pairs k else bucketOf pairs k := by
  by_cases h : k = e.2
  · simp [bucketOf, h]
  · simp [bucketOf, h, Ne.symm h]

/-- The first pass started from any counts adds the length of every bucket. -/
theorem foldl_count_eq_add (pairs : List (Half × Index)) (cnt : Index → Nat) (k : Index) :
    pairs.foldl (fun cnt e => fun k => if k = e.2 then cnt k + 1 else cnt k) cnt k =
      cnt k + (bucketOf pairs k).length := by
  induction pairs generalizing cnt with
  | nil => rfl
  | cons e pairs ih =>
    rw [List.foldl_cons, ih, bucketOf_cons]
    split
    · rw [List.length_cons]; omega
    · rfl

/-- The first pass counts the pairs of every bucket. -/
theorem tally_eq_length (pairs : List (Half × Index)) (k : Index) :
    tally pairs k = (bucketOf pairs k).length :=
  (foldl_count_eq_add pairs _ k).trans (Nat.zero_add _)

/-- An entry of CNTMEM after a CntWrite. -/
theorem get?_cntWrite {m : Memory 17} (h : Memory.wf cntmemSize m) (j k : Index) (v : BitVec 17) :
    Memory.get? (cntWrite m j v) k.toNat = if j = k then some v else Memory.get? m k.toNat := by
  simp only [cntWrite, get?_set _ _ _ _ h.1, BitVec.toNat_inj]

/-- CntWrites for a list of buckets write those buckets' entries and leave the others. -/
theorem get?_foldl_cntWrite (cnt : Index → Nat) (ks : List Index) {m : Memory 17}
    (h : Memory.wf cntmemSize m) (k : Index) :
    Memory.get? (ks.foldl (fun m k => cntWrite m k (BitVec.ofNat 17 (cnt k))) m) k.toNat =
      if k ∈ ks then some (BitVec.ofNat 17 (cnt k)) else Memory.get? m k.toNat := by
  induction ks generalizing m with
  | nil => rfl
  | cons j ks ih =>
    rw [List.foldl_cons, ih (wf_cntWrite j _ h), get?_cntWrite h]
    by_cases hjk : j = k
    · simp [hjk]
    · simp [hjk, Ne.symm hjk]

/-- The loop over buckets keeps CNTMEM in canonical form. -/
theorem wf_writeCounts (cnt : Index → Nat) {m : Memory 17} (h : Memory.wf cntmemSize m) :
    Memory.wf cntmemSize (writeCounts cnt m) :=
  List.foldlRecOn bucketNumbers _ h fun _ hm k _ => wf_cntWrite k _ hm

/-- The loop over buckets ends in the counts R161 defines. -/
theorem writeCounts_eq_countMemory (pairs : List (Half × Index)) {m : Memory 17}
    (h : Memory.wf cntmemSize m) : writeCounts (tally pairs) m = countMemory pairs := by
  refine memory_ext (wf_writeCounts _ h) (wf_countMemory pairs) fun n hn => ?_
  obtain ⟨k, rfl⟩ : ∃ k : Index, k.toNat = n :=
    ⟨BitVec.ofNat 6 n, (BitVec.toNat_ofNat n 6).trans (Nat.mod_eq_of_lt hn)⟩
  rw [writeCounts, get?_foldl_cntWrite _ _ h, if_pos (mem_bucketNumbers k), tally_eq_length,
    get?_countMemory]

/-- The second pass keeps LISTMEM in canonical form. -/
theorem wf_writeLists (pairs : List (Half × Index)) (b : Index → Nat) {m : Memory 16}
    (h : Memory.wf listmemSize m) : Memory.wf listmemSize (writeLists pairs b m) := by
  induction pairs generalizing b m with
  | nil => exact h
  | cons e pairs ih => exact ih _ (wf_listWrite _ _ h)

/-- With the running bases `b`, the pairs still to come of every bucket fit into the bucket's own 1024
entries of LISTMEM. -/
def FitsBlocks (pairs : List (Half × Index)) (b : Index → Nat) : Prop :=
  ∀ k : Index, 1024 * k.toNat ≤ b k ∧
    b k + (bucketOf pairs k).length ≤ 1024 * k.toNat + 1024

/-- The base of the first pair to come is one of its bucket's 1024 indices. -/
theorem FitsBlocks.head {e : Half × Index} {pairs : List (Half × Index)} {b : Index → Nat}
    (h : FitsBlocks (e :: pairs) b) :
    1024 * e.2.toNat ≤ b e.2 ∧ b e.2 < 1024 * e.2.toNat + 1024 := by
  have he := h e.2
  rw [bucketOf_cons, if_pos rfl, List.length_cons] at he
  omega

/-- After the first pair's write its bucket goes on one index higher, and all others where they were. -/
theorem FitsBlocks.tail {e : Half × Index} {pairs : List (Half × Index)} {b : Index → Nat}
    (h : FitsBlocks (e :: pairs) b) :
    FitsBlocks pairs fun k => if k = e.2 then b k + 1 else b k := by
  intro k
  have hk := h k
  rw [bucketOf_cons] at hk
  dsimp only
  by_cases hke : k = e.2
  · rw [if_pos hke, List.length_cons] at hk
    rw [if_pos hke]
    omega
  · rw [if_neg hke] at hk ⊢
    exact hk

/-- The second pass lays each bucket's pairs out from its running base, over what LISTMEM held. -/
theorem get?_writeLists {pairs : List (Half × Index)} {b : Index → Nat} {m : Memory 16}
    (hwf : Memory.wf listmemSize m) (hfit : FitsBlocks pairs b) {k : Index} {i : Nat}
    (hi : 1024 * k.toNat ≤ i ∧ i < 1024 * k.toNat + 1024) :
    Memory.get? (writeLists pairs b m) i =
      (Memory.get? (layOutFrom (b k) (bucketOf pairs k)) i).or (Memory.get? m i) := by
  induction pairs generalizing b m with
  | nil => rfl
  | cons e pairs ih =>
    have hbase := hfit.head
    have hlt : e.2.toNat < 64 := e.2.isLt
    have hwrite : Memory.get? (listWrite m (BitVec.ofNat 16 (b e.2)) e.1) i =
        if b e.2 = i then some e.1 else Memory.get? m i := by
      rw [listWrite, BitVec.toNat_ofNat, Nat.mod_eq_of_lt (by omega), get?_set _ _ _ _ hwf.1]
    rw [writeLists, ih (wf_listWrite _ _ hwf) hfit.tail, hwrite, bucketOf_cons]
    by_cases hk : k = e.2
    · subst hk
      simp only [if_true, layOutFrom, Memory.get?]
      by_cases hbi : b e.2 = i
      · simp [hbi, get?_layOutFrom]
      · simp [hbi]
    · have hne : k.toNat ≠ e.2.toNat := fun h => hk (BitVec.eq_of_toNat_eq h)
      simp only [if_neg hk, if_neg (show b e.2 ≠ i by omega)]

/-- The second pass starts each bucket at 1024 times its number. -/
theorem startBase_tally_enumeration (pfx : Word) (k : Index) :
    startBase (tally (enumeration pfx)) k = 1024 * k.toNat := by
  simp only [startBase, tally_eq_length, bucketOf_enumeration_eq_bucketList, length_bucketList]
  exact sum_1024_below k

/-- At the start of the second pass each bucket's pairs fill its 1024 entries. -/
theorem fitsBlocks_start (pfx : Word) :
    FitsBlocks (enumeration pfx) (startBase (tally (enumeration pfx))) := by
  intro k
  rw [startBase_tally_enumeration, bucketOf_enumeration_eq_bucketList, length_bucketList]
  exact ⟨Nat.le_refl _, Nat.le_refl _⟩

/-- The second pass ends in the lists R161 defines. -/
theorem writeLists_eq_listMemory (pfx : Word) {m : Memory 16} (h : Memory.wf listmemSize m) :
    writeLists (enumeration pfx) (startBase (tally (enumeration pfx))) m =
      listMemory (enumeration pfx) := by
  refine memory_ext (wf_writeLists _ _ h) (wf_listMemory (length_enumeration pfx).le) fun i hi => ?_
  obtain ⟨k, hk⟩ := exists_block hi
  obtain ⟨n, rfl⟩ := Nat.exists_eq_add_of_le hk.1
  have hn : n < 1024 := by omega
  rw [get?_writeLists h (fitsBlocks_start pfx) hk, startBase_tally_enumeration, get?_layOutFrom,
    if_pos hk.1, Nat.add_sub_cancel_left, bucketOf_enumeration_eq_bucketList, get?_listMemory,
    getElem?_concatenatedLists pfx k hn,
    List.getElem?_eq_getElem (by rwa [length_bucketList]), Option.some_or]

/-- Settles O47, memory by memory. -/
theorem crunLoopsReachDefinition : Obligations.CrunLoopsReachDefinition := by
  intro pfx cm lm hcm hlm
  rw [crunByLoops, writeCounts_eq_countMemory (enumeration pfx) hcm, writeLists_eq_listMemory pfx hlm]

end Sys2Proof.Machine

/-! Register transfer and control (46_control): NOP, the loads of DATA, RD and WR over the register
map, and CLRERR. -/

namespace Sys2Proof.Machine

open Sys2Proof.Safety

/-! ## NOP (R180) -/

/-- NOP only answers (R180). -/
theorem exec_nop (s : State) : exec .nop s = .next { s with rsp := success 0 } := rfl

/-- A word whose top three bytes are 0 holds its low byte in format N's reserved field. -/
theorem reservedField_setWidth_byte (b : Byte) :
    ((b.setWidth 32).extractLsb' 0 24).toNat = b.toNat := by
  rw [BitVec.extractLsb'_toNat, BitVec.toNat_setWidth_of_le (by decide), Nat.shiftRight_zero]
  omega

/-- A word whose top three bytes are 0 has NOP's opcode. -/
theorem opField_setWidth_byte (b : Byte) : opField (b.setWidth 32) = 0 := by
  revert b
  decide

/-- Settles O16: a word 0x000000nn has NOP's opcode and `nn` in the reserved field. -/
theorem nopOnlyResponds : Obligations.NopOnlyResponds := by
  refine ⟨rfl, fun s => ⟨exec_nop s, fun b hb => ?_⟩⟩
  have hfield : ((b.setWidth 32).extractLsb' 0 24).toNat ≠ 0 := by
    rw [reservedField_setWidth_byte]
    exact fun h => hb (BitVec.eq_of_toNat_eq h)
  obtain ⟨hraise, -⟩ := nonzeroReservedFieldsRaise
  exact hraise opcodeTable[0] (List.getElem_mem _) (b.setWidth 32) s (opField_setWidth_byte b) hfield

/-! ## The loads of DATA (R181, R182) -/

/-- LDLO keeps the high half (R181). -/
theorem withLowHalf_eq_append (data : Word) (imm16 : Half) :
    withLowHalf data imm16 = data.extractLsb' 16 16 ++ imm16 := by
  conv_lhs => rw [← halves_append data, withLowHalf_append]

/-- LDHI keeps the low half (R182). -/
theorem withHighHalf_eq_append (data : Word) (imm16 : Half) :
    withHighHalf data imm16 = imm16 ++ data.extractLsb' 0 16 := by
  conv_lhs => rw [← halves_append data, withHighHalf_append]

/-- Settles O30: each load's result as the kept half beside the immediate. -/
theorem loadsWriteTheirHalf : Obligations.LoadsWriteTheirHalf := by
  refine ⟨fun v => ⟨wordI_eq_or 0x70 v, wordI_eq_or 0x71 v⟩, fun s v => ⟨?_, ?_⟩⟩
  · rw [exec_ldlo, withLowHalf_eq_append]
  · rw [exec_ldhi, withHighHalf_eq_append]

/-! ## The register map by number (R34) -/

/-- A word of format R is its opcode's word with the register number in the low four bits. -/
theorem wordR_eq_or (op : Byte) (rn : RegNum) : wordR op rn = wordR op 0 ||| rn.setWidth 32 :=
  have hrn : rn.setWidth 32 = 0#28 ++ rn := BitVec.setWidth_eq_append (by decide)
  calc wordR op rn
    _ = (op ++ 0#20 ||| 0#28) ++ (0#4 ||| rn) := by rw [BitVec.or_zero, BitVec.zero_or]; rfl
    _ = wordR op 0 ||| rn.setWidth 32 := by rw [hrn, ← BitVec.or_append]; rfl

/-- The registers in the order of their numbers (R34). -/
def registersByNumber : List Reg :=
  [.crc, .cnt, .res, .refl, .idx, .hth, .htl, .data, .pfx, .status, .vstat]

/-- A number names the register at its place in that order. -/
theorem regOfNum_eq_getElem? (rn : RegNum) : regOfNum rn = registersByNumber[rn.toNat]? := by
  revert rn
  decide

/-- A number WR does not accept names no register or a read-only one (R184). -/
theorem readOnly_of_not_mem_writable {rn : RegNum} (h : rn.toNat ∉ [0, 1, 5, 6, 7, 8]) :
    ∀ r ∈ regOfNum rn, r = .res ∨ r = .refl ∨ r = .idx ∨ r = .status ∨ r = .vstat := by
  revert rn
  decide

/-! ## RD (R183) -/

/-- RD of a register's number answers what the register reads as. -/
theorem exec_rd_of_regOfNum {rn : RegNum} {r : Reg} (h : regOfNum rn = some r) (s : State) :
    exec (.rd rn) s = .next { s with rsp := success (s.readReg r) } := by
  rw [exec, execRd, h]
  rfl

/-- RD of a reserved number raises IllegalCommand. -/
theorem exec_rd_of_reserved {rn : RegNum} (h : regOfNum rn = none) (s : State) :
    exec (.rd rn) s = .next (s.raise .illegalCommand) := by
  rw [exec, execRd, h]

/-- Settles O31: the list of read views is the register map read in the order of the numbers. -/
theorem rdAnswersRegister : Obligations.RdAnswersRegister := by
  refine ⟨wordR_eq_or 0x72, fun s rn => ⟨fun h => ?_, fun v hv => ?_⟩⟩
  · exact exec_rd_of_reserved ((regOfNum_eq_none_iff rn).mpr h) s
  · change (registersByNumber.map s.readReg)[rn.toNat]? = some v at hv
    rw [List.getElem?_map, ← regOfNum_eq_getElem?] at hv
    obtain ⟨r, hr, rfl⟩ := Option.map_eq_some_iff.mp hv
    exact exec_rd_of_regOfNum hr s

/-! ## WR (R184) -/

/-- WR of a writable register's number writes DATA to it and answers DATA. -/
theorem exec_wr_of_writeReg {rn : RegNum} {r : Reg} {s t : State} (hr : regOfNum rn = some r)
    (ht : s.writeReg r s.data = some t) : exec (.wr rn) s = .next (t.respond s.data) := by
  rw [exec, execWr, hr, Option.bind_some, ht]

/-- WR of any other number raises IllegalCommand. -/
theorem exec_wr_of_not_writable {rn : RegNum} (h : rn.toNat ∉ [0, 1, 5, 6, 7, 8]) (s : State) :
    exec (.wr rn) s = .next (s.raise .illegalCommand) := by
  have hnone : ((regOfNum rn).bind fun r => s.writeReg r s.data) = none :=
    Option.bind_eq_none_iff.mpr fun r hr =>
      (writeReg_eq_none_iff s r s.data).mpr (readOnly_of_not_mem_writable h r hr)
  rw [exec, execWr, hnone]

/-- Settles O33: one write of the register map per writable number. -/
theorem wrWritesRegister : Obligations.WrWritesRegister :=
  ⟨wordR_eq_or 0x73, fun s =>
    ⟨exec_wr_crc s, exec_wr_cnt s,
      exec_wr_of_writeReg (r := .hth) rfl rfl,
      exec_wr_of_writeReg (r := .htl) rfl rfl,
      exec_wr_of_writeReg (r := .data) rfl rfl,
      exec_wr_of_writeReg (r := .pfx) rfl rfl,
      fun _ hrn => exec_wr_of_not_writable hrn s⟩⟩

/-! ## CLRERR (R185) -/

/-- CLRERR clears the error record and answers 0. -/
theorem exec_clrerr (s : State) :
    exec .clrerr s = .next { s with status := clearErrorRecord s.status, rsp := success 0 } := rfl

/-- Settles O34: the error record `clearErrorRecord` leaves has CV as before. -/
theorem clrerrClearsRecord : Obligations.ClrerrClearsRecord := ⟨rfl, exec_clrerr⟩

end Sys2Proof.Machine

/-! Errors, responses and the host port (60_exceptions): which command raises which error, the one
response of every command and accepted word, and the steps of a host that issues and takes. -/

namespace Sys2Proof.Machine

open Sys2Proof.Safety

/-! ## The error path (R201, R204) -/

/-- Settles O12: the error path is a next state like any other, so `runWord_cases` goes on from it. -/
theorem errorPathIsPrecise : Obligations.ErrorPathIsPrecise := by
  refine ⟨fun _ _ => rfl, rfl, rfl, rfl, fun w e s => ?_⟩
  obtain ⟨t, h, -⟩ := runWord_cases w (s.raise e)
  exact ⟨t, h⟩

/-- Settles O14: a success answers code 0, so the command took the error path. -/
theorem failedCommandChangesOnlyErrorRecord : Obligations.FailedCommandChangesOnlyErrorRecord := by
  intro i s t r h hr hcode
  rcases exec_outcome h with ⟨d, hd, -⟩ | ⟨e, rfl⟩
  · cases hd.symm.trans hr
    exact absurd rfl hcode
  · cases hr
    exact ⟨rfl, rfl, rfl, rfl⟩

/-! ## Which command raises which error (R202, R203, R205, R206) -/

/-- The table of R205 for the errors of execution: the error a command raises from a state, if any. -/
def raisedError (i : Instr) (s : State) : Option Error :=
  match i with
  | .hashmac => if s.cnt = 6 then none else some .invalidInput
  | .rd rn => if 11 ≤ rn.toNat then some .illegalCommand else none
  | .wr rn => if rn.toNat ∈ [0, 1, 5, 6, 7, 8] then none else some .illegalCommand
  | .ccnt _ | .cbase _ | .clist _ => if s.status.cv = false then some .notReady else none
  | _ => none

/-- A number WR accepts names a register that WR can write (R184). -/
theorem exists_writeReg_of_mem_writable {rn : RegNum} (h : rn.toNat ∈ [0, 1, 5, 6, 7, 8])
    (s : State) (v : Word) : ∃ q u, regOfNum rn = some q ∧ s.writeReg q v = some u := by
  have hwritable : ∃ q ∈ regOfNum rn,
      ¬(q = .res ∨ q = .refl ∨ q = .idx ∨ q = .status ∨ q = .vstat) := by
    revert rn
    decide
  obtain ⟨q, hq, hnot⟩ := hwritable
  obtain ⟨u, hu⟩ := Option.ne_none_iff_exists'.mp (mt (writeReg_eq_none_iff s q v).mp hnot)
  exact ⟨q, u, hq, hu⟩

/-- Where the table names an error, the command takes the error path with it. -/
theorem exec_of_raisedError {i : Instr} {s : State} {e : Error} (h : raisedError i s = some e) :
    exec i s = .next (s.raise e) := by
  cases i with
  | hashmac =>
    obtain ⟨hcnt, ⟨⟩⟩ := Option.ite_none_left_eq_some.mp h
    exact exec_hashmac_of_cnt_ne hcnt
  | rd rn =>
    obtain ⟨hrn, ⟨⟩⟩ := Option.ite_none_right_eq_some.mp h
    exact exec_rd_of_reserved ((regOfNum_eq_none_iff rn).mpr hrn) s
  | wr rn =>
    obtain ⟨hrn, ⟨⟩⟩ := Option.ite_none_left_eq_some.mp h
    exact exec_wr_of_not_writable hrn s
  | ccnt k =>
    obtain ⟨hcv, ⟨⟩⟩ := Option.ite_none_right_eq_some.mp h
    exact exec_ccnt_notReady k hcv
  | cbase k =>
    obtain ⟨hcv, ⟨⟩⟩ := Option.ite_none_right_eq_some.mp h
    exact exec_cbase_notReady k hcv
  | clist n =>
    obtain ⟨hcv, ⟨⟩⟩ := Option.ite_none_right_eq_some.mp h
    exact exec_clist_notReady n hcv
  | _ => cases h

/-- Where the table names no error, the command answers success. -/
theorem exec_success_of_raisedError_none {i : Instr} {s : State} (h : raisedError i s = none) :
    ∃ t d, exec i s = .next t ∧ t.rsp = success d := by
  cases i with
  | hashmac =>
    have hcnt : s.cnt = 6 := by simpa [raisedError] using h
    exact ⟨_, _, exec_hashmac_of_cnt hcnt, rfl⟩
  | rd rn =>
    have hrn : ¬11 ≤ rn.toNat := by simpa [raisedError] using h
    obtain ⟨q, hq⟩ := Option.ne_none_iff_exists'.mp (mt (regOfNum_eq_none_iff rn).mp hrn)
    exact ⟨_, _, exec_rd_of_regOfNum hq s, rfl⟩
  | wr rn =>
    have hrn : rn.toNat ∈ [0, 1, 5, 6, 7, 8] := by
      by_contra hrn
      simp [raisedError, hrn] at h
    obtain ⟨q, u, hq, hu⟩ := exists_writeReg_of_mem_writable hrn s s.data
    exact ⟨_, _, exec_wr_of_writeReg hq hu, rfl⟩
  | ccnt k =>
    have hcv : s.status.cv = true := by simpa [raisedError] using h
    exact ⟨_, _, exec_ccnt_of_cv k hcv, rfl⟩
  | cbase k =>
    have hcv : s.status.cv = true := by simpa [raisedError] using h
    exact ⟨_, _, exec_cbase_of_cv k hcv, rfl⟩
  | clist n =>
    have hcv : s.status.cv = true := by simpa [raisedError] using h
    exact ⟨_, _, exec_clist_of_cv n hcv, rfl⟩
  | _ => exact ⟨_, _, rfl, rfl⟩

/-- A command answers an error's code exactly where the table names that error for it. -/
theorem code_eq_errorCode_iff {i : Instr} {s t : State} {r : Response} (h : exec i s = .next t)
    (hr : t.rsp = some r) (e : Error) : r.code = errorCode e ↔ raisedError i s = some e := by
  cases hraised : raisedError i s with
  | none =>
    obtain ⟨u, d, hu, hd⟩ := exec_success_of_raisedError_none hraised
    cases h.symm.trans hu
    cases hd.symm.trans hr
    simp [(errorCode_ne_zero e).symm]
  | some f =>
    cases h.symm.trans (exec_of_raisedError hraised)
    cases hr
    exact ⟨fun hcode => congrArg some (errorCode_inj hcode), fun hf => by cases hf; rfl⟩

/-- The table's rows for InvalidInput (R202). -/
theorem raisedError_eq_invalidInput_iff (i : Instr) (s : State) :
    raisedError i s = some .invalidInput ↔ i = .hashmac ∧ s.cnt ≠ 6 := by
  cases i <;> simp [raisedError]

/-- The table's rows for IllegalCommand (R203). -/
theorem raisedError_eq_illegalCommand_iff (i : Instr) (s : State) :
    raisedError i s = some .illegalCommand ↔
      (∃ rn : RegNum, i = .rd rn ∧ 11 ≤ rn.toNat) ∨
        ∃ rn : RegNum, i = .wr rn ∧ rn.toNat ∉ [0, 1, 5, 6, 7, 8] := by
  cases i <;> simp [raisedError]

/-- The table's rows for NotReady (R206). -/
theorem raisedError_eq_notReady_iff (i : Instr) (s : State) :
    raisedError i s = some .notReady ↔ s.status.cv = false ∧
      ((∃ k, i = .ccnt k) ∨ (∃ k, i = .cbase k) ∨ ∃ n, i = .clist n) := by
  cases i <;> simp [raisedError]

/-- Settles O13: each code is an error's, and the table says where that error is raised. -/
theorem errorsByCommand : Obligations.ErrorsByCommand := fun i s _ _ h hr =>
  ⟨(code_eq_errorCode_iff h hr .invalidInput).trans (raisedError_eq_invalidInput_iff i s),
    (code_eq_errorCode_iff h hr .illegalCommand).trans (raisedError_eq_illegalCommand_iff i s),
    (code_eq_errorCode_iff h hr .notReady).trans (raisedError_eq_notReady_iff i s)⟩

/-! ## One response per command and accepted word (R200, R201) -/

/-- Settles O10: both outcomes of a command answer legally and keep the port's lists. -/
theorem everyCommandResponds : Obligations.EveryCommandResponds := by
  intro i s
  rcases exec_cases i s with ⟨t, d, h, htaken, hhost, -⟩ | ⟨e, h⟩
  · exact ⟨_, _, h, rfl, .inl rfl, htaken, hhost⟩
  · exact ⟨_, _, h, rfl, .inr ⟨e, rfl, rfl⟩, rfl, rfl⟩

/-- A word that decodes runs its command (R79). -/
theorem runWord_of_decode_ok {w : Word} {i : Instr} (h : decode w = .ok i) (s : State) :
    runWord w s = exec i s := by
  rw [runWord, h]

/-- An accepted word, legal or not, completes with one legal response and keeps the port's lists. -/
theorem runWord_responds (w : Word) (s : State) : ∃ t r, runWord w s = .next t ∧ t.rsp = some r ∧
    ResponseLegal r ∧ t.taken = s.taken ∧ t.host = s.host := by
  cases hw : decode w with
  | ok i =>
    rw [runWord_of_decode_ok hw]
    exact everyCommandResponds i s
  | error e =>
    exact ⟨_, _, runWord_of_decode_error hw s, rfl, .inr ⟨.illegalCommand, rfl, rfl⟩, rfl, rfl⟩

/-! ## The step, action by action (R219 to R223, R230) -/

/-- With no host action the block idles. -/
theorem step_of_host_nil {s : State} (h : s.host = []) : step s = .next s := by
  rw [step, portStep, h]

/-- A block with no response waiting runs the offered word. -/
theorem step_issue_of_ready {s : State} {w : Word} {rest : List HostAction} (hr : s.rsp = none)
    (h : s.host = .issue w :: rest) : step s = runWord w { s with host := rest } := by
  rw [step, portStep, h]
  exact if_pos (Option.isNone_iff_eq_none.mpr hr)

/-- A block with a response waiting does not accept the offered word. -/
theorem step_issue_of_waiting {s : State} {w : Word} {r : Response} {rest : List HostAction}
    (hr : s.rsp = some r) (h : s.host = .issue w :: rest) : step s = .next s := by
  simp [step, portStep, h, State.ready, hr]

/-- A take with no response offered is used up. -/
theorem step_take_of_ready {s : State} {rest : List HostAction} (hr : s.rsp = none)
    (h : s.host = .take :: rest) : step s = .next { s with host := rest } := by
  simp [step, portStep, h, takeResponse, State.deliver, hr]

/-- A take delivers a response whose code is not reserved. -/
theorem step_take_of_waiting {s : State} {r : Response} {rest : List HostAction}
    (hr : s.rsp = some r) (hcode : r.code.toNat < 4) (h : s.host = .take :: rest) :
    step s = .next { s with rsp := none, taken := s.taken ++ [r], host := rest } := by
  simp [step, portStep, h, takeResponse, State.deliver, hr, hcode]

/-- The reset input resets all but what the host has and will do. -/
theorem step_reset {s : State} {rest : List HostAction} (h : s.host = .reset :: rest) :
    step s = .next { State.reset with taken := s.taken, host := rest } := by
  rw [step, portStep, h]
  rfl

/-- Reset during a command abandons it. -/
theorem step_resetDuring_of_ready {s : State} {w : Word} {rest : List HostAction}
    (hr : s.rsp = none) (h : s.host = .resetDuring w :: rest) :
    step s = .next { State.reset with taken := s.taken, host := rest } := by
  rw [step, portStep, h]
  exact if_pos (Option.isNone_iff_eq_none.mpr hr)

/-- A block with a response waiting does not accept the word to be abandoned. -/
theorem step_resetDuring_of_waiting {s : State} {w : Word} {r : Response}
    {rest : List HostAction} (hr : s.rsp = some r) (h : s.host = .resetDuring w :: rest) :
    step s = .next s := by
  simp [step, portStep, h, State.ready, hr]

/-- Settles O7: the step is `runWord`, in the two cases of the decoder. -/
theorem stepRunsDecodedCommand : Obligations.StepRunsDecodedCommand := fun _ _ _ hr h =>
  ⟨fun _ hw => (step_issue_of_ready hr h).trans (runWord_of_decode_ok hw _),
    fun _ hw => (step_issue_of_ready hr h).trans (runWord_of_decode_error hw _)⟩

/-! ## Every response is legal (R201) -/

/-- A legal response has no reserved code. -/
theorem code_lt_of_responseLegal {r : Response} (h : ResponseLegal r) : r.code.toNat < 4 := by
  rcases h with hcode | ⟨e, hcode, -⟩
  · simp [hcode]
  · obtain ⟨-, hle⟩ := errorCode_toNat e
    exact hcode ▸ Nat.lt_succ_of_le hle

/-- Settles O58: an accepted word answers legally, a take delivers the legal response offered, and any
other step offers or delivers nothing new. -/
theorem stepKeepsResponsesLegal : Obligations.StepKeepsResponsesLegal := by
  rintro s ⟨hoffered, htaken⟩
  have hreset (rest) : ResponsesLegal { State.reset with taken := s.taken, host := rest } :=
    ⟨nofun, htaken⟩
  cases hh : s.host with
  | nil => exact ⟨s, step_of_host_nil hh, hoffered, htaken⟩
  | cons a rest =>
    cases a with
    | issue w =>
      cases hr : s.rsp with
      | none =>
        obtain ⟨t, r, ht, htr, hlegal, httaken, -⟩ := runWord_responds w { s with host := rest }
        refine ⟨t, (step_issue_of_ready hr hh).trans ht, fun q hq => ?_, httaken ▸ htaken⟩
        cases htr.symm.trans hq
        exact hlegal
      | some r => exact ⟨s, step_issue_of_waiting hr hh, hoffered, htaken⟩
    | take =>
      cases hr : s.rsp with
      | none => exact ⟨_, step_take_of_ready hr hh, hoffered, htaken⟩
      | some r =>
        have hlegal := hoffered r hr
        refine ⟨_, step_take_of_waiting hr (code_lt_of_responseLegal hlegal) hh, nofun, ?_⟩
        exact List.forall_mem_append.mpr ⟨htaken, List.forall_mem_singleton.mpr hlegal⟩
    | reset => exact ⟨_, step_reset hh, hreset rest⟩
    | resetDuring w =>
      cases hr : s.rsp with
      | none => exact ⟨_, step_resetDuring_of_ready hr hh, hreset rest⟩
      | some r => exact ⟨s, step_resetDuring_of_waiting hr hh, hoffered, htaken⟩

/-! ## A stream of words (R220, R223) -/

/-- The same state at another point of the host's dealings: other responses delivered before, other
actions to come. -/
def State.withHostSide (s : State) (taken : List Response) (host : List HostAction) : State :=
  { s with taken := taken, host := host }

/-- No register reads differently once the host's side is another. -/
theorem readReg_withHostSide (s : State) (ts : List Response) (hs : List HostAction) (r : Reg) :
    (s.withHostSide ts hs).readReg r = s.readReg r := by
  cases r <;> rfl

/-- A register write does the same whatever the host's side is. -/
theorem writeReg_withHostSide (s : State) (ts : List Response) (hs : List HostAction) (r : Reg)
    (v : Word) :
    (s.withHostSide ts hs).writeReg r v = (s.writeReg r v).map (·.withHostSide ts hs) := by
  cases r <;> rfl

/-- A command does not see what the host has taken or will do. -/
theorem exec_withHostSide {i : Instr} {s t : State} (h : exec i s = .next t) (ts : List Response)
    (hs : List HostAction) : exec i (s.withHostSide ts hs) = .next (t.withHostSide ts hs) := by
  cases i with
  | hashmac | ccnt | cbase | clist =>
    simp only [exec, execHashmac, execCcnt, execCbase, execClist] at h ⊢
    split at h <;> cases h
    · exact if_pos ‹_›
    · exact if_neg ‹_›
  | rd rn =>
    cases hq : regOfNum rn with
    | some q =>
      cases h.symm.trans (exec_rd_of_regOfNum hq s)
      rw [exec_rd_of_regOfNum hq, readReg_withHostSide]
      rfl
    | none =>
      cases h.symm.trans (exec_rd_of_reserved hq s)
      exact exec_rd_of_reserved hq _
  | wr rn =>
    by_cases hrn : rn.toNat ∈ [0, 1, 5, 6, 7, 8]
    · obtain ⟨q, u, hq, hu⟩ := exists_writeReg_of_mem_writable hrn s s.data
      cases h.symm.trans (exec_wr_of_writeReg hq hu)
      have hwrite : (s.withHostSide ts hs).writeReg q s.data = some (u.withHostSide ts hs) := by
        rw [writeReg_withHostSide, hu, Option.map_some]
      exact exec_wr_of_writeReg hq hwrite
    · cases h.symm.trans (exec_wr_of_not_writable hrn s)
      exact exec_wr_of_not_writable hrn _
  | _ => cases h; rfl

/-- An accepted word does not see what the host has taken or will do. -/
theorem runWord_withHostSide {w : Word} {s t : State} (h : runWord w s = .next t)
    (ts : List Response) (hs : List HostAction) :
    runWord w (s.withHostSide ts hs) = .next (t.withHostSide ts hs) := by
  cases hw : decode w with
  | ok i =>
    rw [runWord_of_decode_ok hw] at h ⊢
    exact exec_withHostSide h ts hs
  | error e =>
    cases h.symm.trans (runWord_of_decode_error hw s)
    exact runWord_of_decode_error hw _

/-- What a word leaves behind is where it completes. -/
theorem afterWord_of_runWord {w : Word} {s t : State} (h : runWord w s = .next t) :
    afterWord w s = t := by
  rw [afterWord, h]

/-- The responses to a list of words do not depend on what the host has taken or will do. -/
theorem responsesTo_withHostSide (ws : List Word) (s : State) (ts : List Response)
    (hs : List HostAction) : responsesTo ws (s.withHostSide ts hs) = responsesTo ws s := by
  induction ws generalizing s with
  | nil => rfl
  | cons w ws ih =>
    obtain ⟨t, r, ht, -⟩ := runWord_responds w s
    rw [responsesTo, responsesTo, afterWord_of_runWord ht,
      afterWord_of_runWord (runWord_withHostSide ht ts hs)]
    exact congrArg (t.rsp.toList ++ ·) (ih { t with rsp := none })

/-- A step that goes on is the first of a longer run. -/
theorem run_succ_of_step {s t : State} (h : step s = .next t) (k : Nat) :
    core.run (k + 1) s = core.run k t := by
  have hcore : core.step s = .next t := h
  simp only [Host.Core.run, hcore]

/-- A ready block that is offered a word and then meets a take delivers the word's one response: the
issue step and the take step together. -/
theorem run_issue_take {s : State} {w : Word} {rest : List HostAction} (hr : s.rsp = none)
    (h : s.host = .issue w :: .take :: rest) (k : Nat) :
    ∃ t r, runWord w s = .next t ∧ t.rsp = some r ∧
      core.run (k + 2) s =
        core.run k ({ t with rsp := none }.withHostSide (s.taken ++ [r]) rest) := by
  obtain ⟨t, r, ht, htr, hlegal, -⟩ := runWord_responds w s
  have hissue : step s = .next (t.withHostSide s.taken (.take :: rest)) :=
    (step_issue_of_ready hr h).trans (runWord_withHostSide ht s.taken (.take :: rest))
  have htake : step (t.withHostSide s.taken (.take :: rest)) =
      .next ({ t with rsp := none }.withHostSide (s.taken ++ [r]) rest) :=
    step_take_of_waiting htr (code_lt_of_responseLegal hlegal) rfl
  exact ⟨t, r, ht, htr, (run_succ_of_step hissue _).trans (run_succ_of_step htake k)⟩

/-- Settles O11, by induction on the words: each takes an issue step and a take step, and the rest
start from the ready state it leaves. -/
theorem oneResponsePerWord : Obligations.OneResponsePerWord := by
  intro ws
  induction ws with
  | nil =>
    intro s hr hh
    exact ⟨s, rfl, hh, hr, (List.append_nil _).symm, rfl⟩
  | cons w ws ih =>
    intro s hr hh
    obtain ⟨t, r, ht, htr, hrun⟩ := run_issue_take hr hh (2 * ws.length)
    obtain ⟨u, hu, huhost, hursp, hutaken, hlength⟩ :=
      ih ({ t with rsp := none }.withHostSide (s.taken ++ [r]) (script ws)) rfl rfl
    rw [responsesTo_withHostSide] at hutaken hlength
    have hresponses : responsesTo (w :: ws) s = r :: responsesTo ws { t with rsp := none } := by
      rw [responsesTo, afterWord_of_runWord ht, htr]
      rfl
    refine ⟨u, hrun.trans hu, huhost, hursp, ?_, ?_⟩
    · rw [hutaken, hresponses]
      exact List.append_assoc _ _ _
    · rw [hresponses, List.length_cons, hlength, List.length_cons]

end Sys2Proof.Machine

/-! The canonical form of both memories (R38, R39), SRST (R189), and the steps that run no command. -/

namespace Sys2Proof.Machine

open Sys2Proof.Safety

/-! ## Both memories in canonical form (R38, R39) -/

/-- Every command keeps the canonical form: CRUN lays out 64 counts and 65536 pairs, SRST lists
nothing, and any other command keeps both memories. -/
theorem exec_memoriesCanonical {i : Instr} {s t : State} (hs : MemoriesCanonical s)
    (h : exec i s = .next t) : MemoriesCanonical t := by
  unfold MemoriesCanonical
  cases exec_mapEffect h with
  | built _ hc hl =>
    rw [hc, hl]
    exact ⟨wf_countMemory _, wf_listMemory (length_enumeration s.pfx).le⟩
  | cleared _ hc hl =>
    rw [hc, hl]
    exact reset_memories_wf
  | kept _ _ hc hl =>
    rw [hc, hl]
    exact hs

/-- Settles O55, by `exec_memoriesCanonical` and the step induction. -/
theorem stepKeepsMemoriesCanonical : Obligations.StepKeepsMemoriesCanonical := by
  intro s t hs h
  exact step_keeps MemoriesCanonical (fun _ _ _ _ hs => hs) reset_memories_wf (fun _ _ hs => hs)
    (fun _ _ _ => exec_memoriesCanonical) hs h

/-! ## Steps without a command (R212, R219, R222, R230) -/

/-- Taking a response whose code is reserved is the fault (U11). -/
theorem step_take_of_reserved {s : State} {r : Response} {rest : List HostAction}
    (hr : s.rsp = some r) (hcode : 4 ≤ r.code.toNat) (h : s.host = .take :: rest) :
    step s = .fault .reservedResponseCode := by
  simp [step, portStep, h, takeResponse, hr, hcode.not_gt]

/-- Settles O8, one clause per action of the host and state of the port. -/
theorem stepWithoutCommand : Obligations.StepWithoutCommand :=
  ⟨fun _ => step_of_host_nil,
    fun _ _ _ _ hr h => h.elim (step_issue_of_waiting hr) (step_resetDuring_of_waiting hr),
    fun _ _ _ => step_take_of_waiting,
    fun _ _ _ => step_take_of_reserved,
    fun _ _ => step_take_of_ready⟩

/-- Settles O9: reset alone, and reset while a command executes. -/
theorem resetAbandonsCommand : Obligations.ResetAbandonsCommand :=
  ⟨fun _ _ => step_reset, fun _ _ _ => step_resetDuring_of_ready⟩

/-! ## SRST (R189) -/

/-- SRST puts all but the port at its reset value and answers 0. -/
theorem exec_srst (s : State) : exec .srst s =
    .next { State.reset with rsp := success 0, taken := s.taken, host := s.host } := rfl

/-- Settles O35: the state `exec_srst` gives holds the reset values of `resetMeetsInvariants`. -/
theorem srstGivesResetState : Obligations.SrstGivesResetState := by
  obtain ⟨hcrc, hcnt, hres, hrefl, hidx, hhth, hhtl, hdata, hpfx, hstatus, hvstat, -⟩ :=
    resetMeetsInvariants
  exact ⟨rfl, fun s => ⟨_, exec_srst s, rfl, hcrc, hcnt, hres, hrefl, hidx, hhth, hhtl, hdata, hpfx,
    hstatus, hvstat⟩⟩

end Sys2Proof.Machine
